-- ==== Sys2Proof/Word.lean ====
section
/-! DEFINITION. The bus widths of the core (spec/00_scope.md R6, R7): every value is unsigned,
bit 0 least significant. -/

namespace Sys2Proof

/-- The command word `CMD[31:0]` (R6, R27). -/
abbrev Word := BitVec 32

/-- The data buses `DIN[63:0]` and `DOUT[63:0]`, `W = 64` (R6, R27, R28). -/
abbrev Bus := BitVec 64

/-- The syndrome output `SYN[6:0]` (R6, R28). -/
abbrev Syn := BitVec 7

/-- A byte of the host-side driver's streams (R56). -/
abbrev Byte := BitVec 8

end Sys2Proof
end

