-- ==== Sys2Proof/Syntax.lean ====
section
/-! DEFINITION. The nine commands (spec/30_encoding.md R72), one constructor per row of
spec/opcode_table.json. Operands are the unsigned integers of R71; `DIN` is no part of the command
word (R70) and is read from the port. -/

namespace Sys2Proof

/-- A decoded command. -/
inductive Instr where
  /-- `CFG r`: construct the general codec (R127). -/
  | cfg (r : Nat)
  /-- `ENC.G len`: general encode (R128). -/
  | encG (len : Nat)
  /-- `DEC.G len`: general decode (R129). -/
  | decG (len : Nat)
  /-- `ENC.74 len`: Hamming(7,4) encode (R153). -/
  | enc74 (len : Nat)
  /-- `DEC.74 len`: Hamming(7,4) decode (R154). -/
  | dec74 (len : Nat)
  /-- `ENC.1511 len`: Hamming(15,11) encode (R157). -/
  | enc1511 (len : Nat)
  /-- `DEC.1511 len`: Hamming(15,11) decode (R158). -/
  | dec1511 (len : Nat)
  /-- `ISPOW2 pos`: the parity-position classifier (R110). -/
  | isPow2 (pos : Nat)
  /-- `COVERS parity_pos, n`: the coverage-set generator (R111). -/
  | covers (parityPos n : Nat)
deriving DecidableEq, Repr

end Sys2Proof
end

