-- ==== Sys2Proof/WellFormed.lean ====
section
/-! DEFINITION. A command is well formed when each operand fits its 7-bit field
(spec/30_encoding.md R70, R71, R78: "An operand that does not fit its 7-bit field is an assembly
error"). No value of a used field is illegal beyond that (R74). -/

namespace Sys2Proof

/-- The operand fits a 7-bit field (R71: 0..127). -/
def fitsField (v : Nat) : Bool := decide (v < 128)

/-- Every operand of the command fits its field. -/
def Instr.wf : Instr → Bool
  | .cfg r => fitsField r
  | .encG len => fitsField len
  | .decG len => fitsField len
  | .enc74 len => fitsField len
  | .dec74 len => fitsField len
  | .enc1511 len => fitsField len
  | .dec1511 len => fitsField len
  | .isPow2 pos => fitsField pos
  | .covers p n => fitsField p && fitsField n

end Sys2Proof
end

