-- ==== Sys2Proof/Decode.lean ====
section
/-! DEFINITION. Decoding and encoding of command words (spec/30_encoding.md R70 to R76, R80). -/

namespace Sys2Proof

/-! ## Fields (R70) -/

/-- `w[lo + width - 1 : lo]` as an unsigned integer (R7, R71). -/
def field (lo width : Nat) (w : Word) : Nat := (w.extractLsb' lo width).toNat

/-- `OP = CMD[3:0]` (R70). -/
def fieldOp (w : Word) : Nat := field 0 4 w

/-- `LEN = CMD[10:4]` (R70). -/
def fieldLen (w : Word) : Nat := field 4 7 w

/-- `A = CMD[17:11]` (R70). -/
def fieldA (w : Word) : Nat := field 11 7 w

/-- `B = CMD[24:18]` (R70). -/
def fieldB (w : Word) : Nat := field 18 7 w

/-- `RSV = CMD[31:25]` (R70). -/
def fieldRsv (w : Word) : Nat := field 25 7 w

/-! ## Decoding -/

/-- Why a command word is illegal (R74). The core does not report which: all respond
`ILLEGAL_COMMAND` (R177; log 16). -/
inductive Illegal where
  /-- `OP` is 0x0 or 0xA to 0xF. -/
  | unassignedOpcode
  /-- `RSV` is not 0. -/
  | reservedBits
  /-- A field the opcode does not use is not 0. -/
  | unusedField
deriving DecidableEq, Repr

/-- A command whose unused fields must all be 0 (R73, R74). -/
def whenUnusedZero (unusedZero : Bool) (i : Instr) : Except Illegal Instr :=
  if unusedZero then .ok i else .error .unusedField

/-- The command words whose only used field is `LEN`. -/
def decodeLen (w : Word) (mk : Nat → Instr) : Except Illegal Instr :=
  whenUnusedZero (fieldA w == 0 && fieldB w == 0) (mk (fieldLen w))

/-- The command words whose only used field is `A`. -/
def decodeA (w : Word) (mk : Nat → Instr) : Except Illegal Instr :=
  whenUnusedZero (fieldLen w == 0 && fieldB w == 0) (mk (fieldA w))

/-- The decoder, total on every 32-bit word (R72, R74, R76). -/
def decode (w : Word) : Except Illegal Instr :=
  if fieldRsv w ≠ 0 then .error .reservedBits
  else
    match fieldOp w with
    | 1 => decodeA w .cfg
    | 2 => decodeLen w .encG
    | 3 => decodeLen w .decG
    | 4 => decodeLen w .enc74
    | 5 => decodeLen w .dec74
    | 6 => decodeLen w .enc1511
    | 7 => decodeLen w .dec1511
    | 8 => decodeA w .isPow2
    | 9 => whenUnusedZero (fieldLen w == 0) (.covers (fieldA w) (fieldB w))
    | _ => .error .unassignedOpcode

/-- The illegal command words, in the words of R74: "when `OP` is 0x0 or 0xA to 0xF, when `RSV != 0`,
or when a field its opcode does not use (rule R72) is not 0". -/
def illegalWord (w : Word) : Bool :=
  let op := fieldOp w
  op == 0 || decide (10 ≤ op) || fieldRsv w != 0 ||
    ((op == 1 || op == 8) && (fieldLen w != 0 || fieldB w != 0)) ||
    (decide (2 ≤ op ∧ op ≤ 7) && (fieldA w != 0 || fieldB w != 0)) ||
    (op == 9 && fieldLen w != 0)

/-! ## The match and mask table (R73) and its procedure (R76) -/

/-- The nine mnemonics of R72. -/
inductive Mnemonic where
  | CFG | ENC_G | DEC_G | ENC_74 | DEC_74 | ENC_1511 | DEC_1511 | ISPOW2 | COVERS
deriving DecidableEq, Repr

/-- One row of the table of R73. -/
structure OpcodeRow where
  mnemonic : Mnemonic
  matchWord : Word
  mask : Word
deriving DecidableEq, Repr

/-- The table of R73, row by row. -/
def opcodeRows : List OpcodeRow :=
  [ ⟨.CFG, 0x00000001, 0xFFFC07FF⟩,
    ⟨.ENC_G, 0x00000002, 0xFFFFF80F⟩,
    ⟨.DEC_G, 0x00000003, 0xFFFFF80F⟩,
    ⟨.ENC_74, 0x00000004, 0xFFFFF80F⟩,
    ⟨.DEC_74, 0x00000005, 0xFFFFF80F⟩,
    ⟨.ENC_1511, 0x00000006, 0xFFFFF80F⟩,
    ⟨.DEC_1511, 0x00000007, 0xFFFFF80F⟩,
    ⟨.ISPOW2, 0x00000008, 0xFFFC07FF⟩,
    ⟨.COVERS, 0x00000009, 0xFE0007FF⟩ ]

/-- "A word `w` is the mnemonic `m` iff `(w & mask_m) == match_m`" (R73). -/
def OpcodeRow.hits (row : OpcodeRow) (w : Word) : Bool := w &&& row.mask == row.matchWord

/-- The decoding procedure of R76: the first row that matches, or none (illegal). -/
def mnemonicOf (w : Word) : Option Mnemonic :=
  (opcodeRows.find? (·.hits w)).map (·.mnemonic)

/-- The mnemonic of a decoded command (R72). -/
def Instr.mnemonic : Instr → Mnemonic
  | .cfg _ => .CFG
  | .encG _ => .ENC_G
  | .decG _ => .DEC_G
  | .enc74 _ => .ENC_74
  | .dec74 _ => .DEC_74
  | .enc1511 _ => .ENC_1511
  | .dec1511 _ => .DEC_1511
  | .isPow2 _ => .ISPOW2
  | .covers _ _ => .COVERS

/-! ## Encoding (R80) -/

/-- `CMD = OP | (LEN << 4) | (A << 11) | (B << 18)` (R80). -/
def commandWord (op len a b : Nat) : Word :=
  BitVec.ofNat 32 (op ||| (len <<< 4) ||| (a <<< 11) ||| (b <<< 18))

/-- The command word of a well-formed command (R72, R80), unused fields 0. -/
def encode : Instr → Word
  | .cfg r => commandWord 1 0 r 0
  | .encG len => commandWord 2 len 0 0
  | .decG len => commandWord 3 len 0 0
  | .enc74 len => commandWord 4 len 0 0
  | .dec74 len => commandWord 5 len 0 0
  | .enc1511 len => commandWord 6 len 0 0
  | .dec1511 len => commandWord 7 len 0 0
  | .isPow2 pos => commandWord 8 0 pos 0
  | .covers p n => commandWord 9 0 p n

/-! ## The opcode table's words -/

/-- The 32-bit command word whose low `nbits` bits are `w`, the bits above 0. -/
def tableWord (nbits w : Nat) : Word := BitVec.ofNat 32 (w % 2 ^ nbits)

/-- What the decoder reads from the opcode table's word. -/
def decodeTableWord (nbits w : Nat) : Option Instr :=
  match decode (tableWord nbits w) with
  | .ok i => some i
  | .error _ => none

end Sys2Proof
end

