-- ==== Sys2Proof/Config.lean ====
section
/-! DEFINITION. What an implementation fixes (`R_MAX`, spec/00_scope.md R5) and the free values the
spec leaves open (U1 and U3 of spec/93_implementation_defined.md). -/

namespace Sys2Proof

/-- The implementation parameter `R_MAX in {4, 5, 6}` (R5, decision D2). -/
inductive RMax where
  | four
  | five
  | six
deriving DecidableEq, Repr

/-- `R_MAX` as a number: the largest number of parity bits `CFG` accepts (R5, R121). -/
def RMax.toNat : RMax → Nat
  | .four => 4
  | .five => 5
  | .six => 6

/-- "the default for this hardware is `R_MAX = 6`" (R5). -/
def Config.defaultRMax : RMax := .six

/-- FREE VALUE (log 4): what `CFG_R` holds after a reset ("unspecified (a model draws any 3-bit
value)", R31, U1). Applied to `State.draws`. -/
opaque Config.freeCfgR : Nat → BitVec 3

/-- FREE VALUE (log 5): when reset is asserted while a command is outstanding, whether the command
completes first (`true`) or is discarded (`false`) ("Which of the two happens is not specified",
R191, U3). Applied to `State.draws`. -/
opaque Config.freeCompletes : Nat → Bool

end Sys2Proof
end

