-- ==== Sys2Proof/Machine/State.lean ====
section
/-! DEFINITION. The state of the core (spec/10_state.md R20 to R32), with the ports of one
transaction and the host's pending presentations beside it. -/

namespace Sys2Proof.Machine

/-- The values of `STATUS` (spec/60_exceptions.md R170), by name; code 7 is reserved and has none. -/
inductive Status where
  | ok
  | corrected
  | invalidParameter
  | invalidInput
  | invalidLength
  | notConfigured
  | illegalCommand
deriving DecidableEq, Repr

/-- The response of one transaction: `STATUS`, `DOUT`, `SYN` (R28). -/
structure Response where
  status : Status
  dout : Bus
  syn : Syn
deriving DecidableEq, Repr

/-- The inputs of one transaction: `CMD` and `DIN` (R27). -/
structure Command where
  cmd : Word
  din : Bus
deriving DecidableEq, Repr

/-- What the host presents to the core (R46, R190, R191). -/
inductive HostEvent where
  /-- A command, run to its response. -/
  | command (c : Command)
  /-- Reset asserted between transactions (R190). -/
  | reset
  /-- A command that is outstanding when reset is asserted (R191, U3). -/
  | commandThenReset (c : Command)
deriving DecidableEq, Repr

/-- The machine. `cfgValid` and `cfgR` are the whole architectural state (R20); `din` and `response`
are the ports of the transaction (R27, R28; log 1); `pending` is what the host has presented and the
core has not yet served, oldest first (R46; log 2); `rMax` is the implementation parameter, which no
step writes (R5; log 6); `draws` is the model's own index of the next free value (log 9). -/
structure State where
  /-- `R_MAX` (R5). -/
  rMax : RMax
  /-- `CFG_VALID`, 1 bit (R21). -/
  cfgValid : Bool
  /-- `CFG_R`, 3 bits (R22). -/
  cfgR : BitVec 3
  /-- `DIN` as sampled by the latest command (R27). -/
  din : Bus
  /-- The host's presentations in port order (R46, R50). -/
  pending : List HostEvent
  /-- The response the latest step produced, if it produced one (R28; none: U2). -/
  response : Option Response
  /-- The index of the next free value. -/
  draws : Nat
deriving DecidableEq, Repr

/-- Why the machine stops. -/
inductive Fault where
  /-- Raised by `DEC.G`, `DEC.74`, `DEC.1511` when step 5 of `HammingDecode` (R126) is reached, a
  syndrome outside `[1, n]`: the branch that 93_implementation_defined.md I4 asks a model to make "a
  `fault` of the model". It is unreachable (R124, R126). Safe: the machine stops where no run of the
  hardware goes (log 7). -/
  | syndromeOutOfRange
deriving DecidableEq, Repr

/-- Why the machine gives an instruction no meaning. -/
inductive Refusal where
  /-- Raised by an arm of `exec` whose instruction has no meaning yet (none is left). Safe. -/
  | notModelled (mnemonic : String)
deriving DecidableEq, Repr

/-- The machine right after reset (R31): `CFG_VALID = 0`; `CFG_R` is unspecified, held at 0 (DESIGN
CHOICE, log 3), which is not counted as the draw of a reset event: a reset event straight from
this state leaves `Config.freeCfgR 0`, not provably 0 (DESIGN CHOICE, log 19); no response; nothing presented; `R_MAX` at its default. -/
def State.reset : State where
  rMax := Config.defaultRMax
  cfgValid := false
  cfgR := 0
  din := 0
  pending := []
  response := none
  draws := 0

end Sys2Proof.Machine
end

