-- ==== Sys2Proof/Machine/Ops.lean ====
section
/-! DEFINITION. The named operations over the state: answering a command, the one error operation,
writing the configuration, taking a command or a reset from the port. The core has no memory (R29),
no register file (R24) and no trap (R181): an error is a response (R171), and `raise` is the one
operation every error goes through. -/

namespace Sys2Proof.Machine

/-- `respond(status, dout, syn)` ends a command and drives the three outputs (R10). -/
def respond (status : Status) (dout : Bus) (syn : Syn) (s : State) : State :=
  { s with response := some ⟨status, dout, syn⟩ }

/-- "`raise E` abbreviates `respond(E, 0, 0)` with no state write" (R10, R171). -/
def raise (e : Status) (s : State) : State := respond e 0 0 s

/-- `CFG_R <- r[2:0]`, `CFG_VALID <- 1` (R127): the only write of the configuration but reset (R32). -/
def writeConfig (r : Nat) (s : State) : State :=
  { s with cfgValid := true, cfgR := BitVec.ofNat 3 r }

/-- A command leaves the port: `DIN` is sampled (R27), what is left pending is `rest`, and no
response shows yet. -/
def accept (c : Command) (rest : List HostEvent) (s : State) : State :=
  { s with pending := rest, din := c.din, response := none, draws := s.draws + 1 }

/-- A command is dropped by reset before it ran: no response, no state write (R191). -/
def discard (s : State) : State := { s with draws := s.draws + 1 }

/-- Reset takes effect: `CFG_VALID = 0`, `CFG_R` unspecified (a free value; log 4), no response
(R31, R190). The free value's index moves only with commands, so that "Reset applied twice in a row
leaves the same state as once" (R190; `State.reset` counts as no application of it, log 19). -/
def takeReset (rest : List HostEvent) (s : State) : State :=
  { s with pending := rest, cfgValid := false, cfgR := Config.freeCfgR s.draws, response := none }

/-- "between commands it does nothing" (R186); its outputs are no observation then (U2; log 8). -/
def idle (s : State) : State := { s with response := none }

/-- The host presents events behind those already pending (R46). -/
def present (events : List HostEvent) (s : State) : State :=
  { s with pending := s.pending ++ events }

end Sys2Proof.Machine
end

