-- ==== Sys2Proof/Machine/Operands.lean ====
section
/-! DEFINITION. Bus bits, codeword positions, masks, and GF(2) sums (spec/00_scope.md R7 to R11,
spec/20_memory.md R41 to R44). -/

namespace Sys2Proof.Machine

/-- Bus bit `i` written: `v[i] <- b`. -/
def setBit (v : Bus) (i : Nat) (b : Bool) : Bus :=
  if b then v ||| (1#64 <<< i) else v &&& ~~~(1#64 <<< i)

/-- `cw@p`: codeword position `p` is bus bit `p - 1` (R8, R41). -/
def bitAt (v : Bus) (p : Nat) : Bool := v.getLsbD (p - 1)

/-- `cw@p <- b` (R8, R41). -/
def setAt (v : Bus) (p : Nat) (b : Bool) : Bus := setBit v (p - 1) b

/-- The bit at position `p` flipped (R126 step 4). -/
def flipAt (v : Bus) (p : Nat) : Bus := v ^^^ (1#64 <<< (p - 1))

/-- `v[len-1:0]`, zero-extended: the block on the bus; the bits above it are ignored (R43). -/
def lowBits (len : Nat) (v : Bus) : Bus := BitVec.ofNat 64 (v.toNat % 2 ^ len)

/-- The positions `1, ..., n` of a codeword, ascending (R8). -/
def positions (n : Nat) : List Nat := List.range' 1 n

/-- `XOR_{x in S} f(x)`, 0 when `S` is empty (R9). -/
def xorOver (S : List Nat) (f : Nat → Bool) : Bool := S.foldl (fun acc x => acc ^^ f x) false

/-- `mask(S)`: position `x` of `S` is bit `x - 1` (R11). -/
def maskOf (S : List Nat) : Bus := S.foldl (fun m x => setAt m x true) 0

/-- `popcount(x)`: the number of one bits of a natural number (R9). -/
def popcount (x : Nat) : Nat := ((List.range (x.log2 + 1)).filter x.testBit).length

/-- `parity(v) = popcount(v) mod 2` (R9). -/
def parity (v : Bus) : Bool := popcount v.toNat % 2 == 1

/-- The bus whose bit `i` is the `i`-th element of the sequence, 0 above it (R42, R44). -/
def busOf (bits : List Bool) : Bus := bits.zipIdx.foldl (fun v x => setBit v x.2 x.1) 0

/-- The first `len` bus bits as a sequence (R41, R42). -/
def bitsOf (len : Nat) (v : Bus) : List Bool := (List.range len).map v.getLsbD

end Sys2Proof.Machine
end

