-- ==== Sys2Proof/Machine/Flags.lean ====
section
/-! DEFINITION. The status codes (spec/60_exceptions.md R170). The core keeps no flag (R26): the
outcome of a command is its `STATUS` response alone. -/

namespace Sys2Proof.Machine

/-- The code on `STATUS[2:0]` (R170). -/
def Status.code : Status → BitVec 3
  | .ok => 0
  | .corrected => 1
  | .invalidParameter => 2
  | .invalidInput => 3
  | .invalidLength => 4
  | .notConfigured => 5
  | .illegalCommand => 6

/-- "`OK` and `CORRECTED` are successes; codes 2 to 6 are errors" (R170). -/
def Status.isError : Status → Bool
  | .ok => false
  | .corrected => false
  | .invalidParameter => true
  | .invalidInput => true
  | .invalidLength => true
  | .notConfigured => true
  | .illegalCommand => true

end Sys2Proof.Machine
end

