-- ==== Sys2Proof/Machine/Positions.lean ====
section
/-! DEFINITION. The position classifier and the coverage-set generator
(spec/40_position_utilities.md), as functions and as the commands `ISPOW2` and `COVERS`. -/

namespace Sys2Proof.Machine

/-! ## Functions (R100 to R103) -/

/-- `IsPow2(x)`: "true iff `popcount(x) = 1`" (R100); false at 0. -/
def isPowerOfTwo (x : Nat) : Bool := popcount x == 1

/-- `Covers(p, n) = { x : 1 <= x <= n and (x & p) != 0 }`, ascending (R101). -/
def coveredSet (p n : Nat) : List Nat := (positions n).filter (fun x => x &&& p != 0)

/-- `n = 2^r - 1` (R120, R23). -/
def codeLength (r : Nat) : Nat := 2 ^ r - 1

/-- `k = n - r` (R120, R23). -/
def dataLength (r : Nat) : Nat := codeLength r - r

/-- `P(r) = [1, 2, 4, ..., 2^(r-1)]` (R102). -/
def parityPositions (r : Nat) : List Nat := (List.range r).map (2 ^ ·)

/-- `DP(r)`: the positions of `[1, n]` that are no power of two, ascending (R103). -/
def dataPositions (r : Nat) : List Nat := (positions (codeLength r)).filter (fun x => !isPowerOfTwo x)

/-! ## Commands -/

/-- `ISPOW2 pos` (R110): always `OK`; no state is written. -/
def execIsPow2 (pos : Nat) (s : State) : Host.Outcome State Fault Refusal :=
  .next (respond .ok (if isPowerOfTwo pos then 1 else 0) 0 s)

/-- `COVERS parity_pos, n` (R111): the mask of the covered set, or `INVALID_INPUT` when `n > 64`. -/
def execCovers (parityPos n : Nat) (s : State) : Host.Outcome State Fault Refusal :=
  if n > 64 then .next (raise .invalidInput s)
  else .next (respond .ok (maskOf (coveredSet parityPos n)) 0 s)

end Sys2Proof.Machine
end

