-- ==== Sys2Proof/Machine/Hamming.lean ====
section
/-! DEFINITION. The codec's functions for any `r` (spec/41_general_codec.md R122 to R126) and the
block commands every codec shares. -/

namespace Sys2Proof.Machine

/-- Step 1 of `HammingEncode` (R122): `cw@dp_i <- d#i`, the rest 0. -/
def placeData (r : Nat) (d : Bus) : Bus :=
  (dataPositions r).zipIdx.foldl (fun cw x => setAt cw x.1 (d.getLsbD x.2)) 0

/-- Step 2 of `HammingEncode` (R122), for one parity position `p`:
`cw@p <- XOR_{x in Covers(p, n), x != p} cw@x`. -/
def fillParity (r : Nat) (cw : Bus) (p : Nat) : Bus :=
  setAt cw p (xorOver ((coveredSet p (codeLength r)).filter (· != p)) (bitAt cw))

/-- `HammingEncode(r, d)` (R122): place the data, then the parity bits, `p` ascending. -/
def hammingEncode (r : Nat) (d : Bus) : Bus :=
  (parityPositions r).foldl (fillParity r) (placeData r d)

/-- One parity check of `Syndrome` (R123): the sum over the full covered set of `2^j`. -/
def checkFails (r : Nat) (c : Bus) (j : Nat) : Bool :=
  xorOver (coveredSet (2 ^ j) (codeLength r)) (bitAt c)

/-- `Syndrome(r, c)` (R123): bit `j` is set iff check `j` fails. -/
def syndrome (r : Nat) (c : Bus) : Nat :=
  (List.range r).foldl (fun s j => if checkFails r c j then s ||| 2 ^ j else s) 0

/-- `Extract(r, c)` (R125): `d#i = c@dp_i`. -/
def extract (r : Nat) (c : Bus) : Bus :=
  (dataPositions r).zipIdx.foldl (fun d x => setBit d x.2 (bitAt c x.1)) 0

/-- The result of `HammingDecode` (R126). -/
inductive Decoded where
  /-- Syndrome 0: `(OK, d, 0)`. -/
  | noError (d : Bus)
  /-- A correction at position `s`: `(CORRECTED, d, s)`. -/
  | corrected (d : Bus) (s : Nat)
  /-- Step 5, unreachable (R124): `(INVALID_LENGTH, 0, 0)`. -/
  | invalidLength
deriving DecidableEq, Repr

/-- `HammingDecode(r, c)` (R126). -/
def hammingDecode (r : Nat) (c : Bus) : Decoded :=
  let s := syndrome r c
  if s = 0 then .noError (extract r c)
  else if 1 ≤ s ∧ s ≤ codeLength r then .corrected (extract r (flipAt c s)) s
  else .invalidLength

/-- What a decode command answers (R129, R154, R158); the branch that R126 and R175 say is never
taken is a fault of the model (93 I4; log 7). -/
def answerDecoded (result : Decoded) (s : State) : Host.Outcome State Fault Refusal :=
  match result with
  | .noError d => .next (respond .ok d 0 s)
  | .corrected d p => .next (respond .corrected d (BitVec.ofNat 7 p) s)
  | .invalidLength => .fault .syndromeOutOfRange

/-- The body of an encode command once `r` is known (R128, R153, R157): the length check, then the
codeword of `DIN[k-1:0]`. -/
def encodeBlock (r len : Nat) (s : State) : Host.Outcome State Fault Refusal :=
  if len ≠ dataLength r then .next (raise .invalidInput s)
  else .next (respond .ok (hammingEncode r (lowBits (dataLength r) s.din)) 0 s)

/-- The body of a decode command once `r` is known (R129, R154, R158): the length check, then
`HammingDecode` of `DIN[n-1:0]`. -/
def decodeBlock (r len : Nat) (s : State) : Host.Outcome State Fault Refusal :=
  if len ≠ codeLength r then .next (raise .invalidInput s)
  else answerDecoded (hammingDecode r (lowBits (codeLength r) s.din)) s

end Sys2Proof.Machine
end

