-- ==== Sys2Proof/Machine/FixedCodecs.lean ====
section
/-! DEFINITION. The fixed Hamming(7,4) and Hamming(15,11) commands (spec/42_fixed_codecs.md), which
are the general codec's functions at `r = 3` and `r = 4` (R150), and beside them the unrolled
datapaths of R151, R152, R155 and R156, which "are an implementation of these functions and have no
meaning of their own" (R150). -/

namespace Sys2Proof.Machine

/-! ## Commands -/

/-- `r` of Hamming74, a hardwired constant (R30). -/
def hamming74R : Nat := 3

/-- `r` of Hamming1511, a hardwired constant (R30). -/
def hamming1511R : Nat := 4

/-- `ENC.74 len` (R153). -/
def execEnc74 (len : Nat) (s : State) : Host.Outcome State Fault Refusal :=
  encodeBlock hamming74R len s

/-- `DEC.74 len` (R154). -/
def execDec74 (len : Nat) (s : State) : Host.Outcome State Fault Refusal :=
  decodeBlock hamming74R len s

/-- `ENC.1511 len` (R157). -/
def execEnc1511 (len : Nat) (s : State) : Host.Outcome State Fault Refusal :=
  encodeBlock hamming1511R len s

/-- `DEC.1511 len` (R158). -/
def execDec1511 (len : Nat) (s : State) : Host.Outcome State Fault Refusal :=
  decodeBlock hamming1511R len s

/-! ## The unrolled datapaths -/

/-- The encoder equations of R151, bus bits 0 to 6. -/
def unrolledEncode74 (d : Bus) : Bus :=
  busOf
    [ d[0] ^^ d[1] ^^ d[3],
      d[0] ^^ d[2] ^^ d[3],
      d[0],
      d[1] ^^ d[2] ^^ d[3],
      d[1],
      d[2],
      d[3] ]

/-- The syndrome equations of R152. -/
def unrolledSyndrome74 (v : Bus) : Nat :=
  (busOf
    [ v[0] ^^ v[2] ^^ v[4] ^^ v[6],
      v[1] ^^ v[2] ^^ v[5] ^^ v[6],
      v[3] ^^ v[4] ^^ v[5] ^^ v[6] ]).toNat

/-- `c'` of R152 and R156: "If `s != 0`, `c' = c ^ (1 << (s - 1))`, else `c' = c`". -/
def unrolledCorrect (c : Bus) (s : Nat) : Bus := if s ≠ 0 then c ^^^ (1#64 <<< (s - 1)) else c

/-- The extraction of R152: `d0 = c'[2]`, `d1 = c'[4]`, `d2 = c'[5]`, `d3 = c'[6]`. -/
def unrolledExtract74 (v : Bus) : Bus := busOf [v[2], v[4], v[5], v[6]]

/-- The encoder equations of R155, bus bits 0 to 14. -/
def unrolledEncode1511 (d : Bus) : Bus :=
  busOf
    [ d[0] ^^ d[1] ^^ d[3] ^^ d[4] ^^ d[6] ^^ d[8] ^^ d[10],
      d[0] ^^ d[2] ^^ d[3] ^^ d[5] ^^ d[6] ^^ d[9] ^^ d[10],
      d[0],
      d[1] ^^ d[2] ^^ d[3] ^^ d[7] ^^ d[8] ^^ d[9] ^^ d[10],
      d[1],
      d[2],
      d[3],
      d[4] ^^ d[5] ^^ d[6] ^^ d[7] ^^ d[8] ^^ d[9] ^^ d[10],
      d[4],
      d[5],
      d[6],
      d[7],
      d[8],
      d[9],
      d[10] ]

/-- The syndrome of R156: four parities over masked codewords. -/
def unrolledSyndrome1511 (c : Bus) : Nat :=
  (busOf
    [ parity (c &&& 0x5555#64),
      parity (c &&& 0x6666#64),
      parity (c &&& 0x7878#64),
      parity (c &&& 0x7F80#64) ]).toNat

/-- The extraction of R156: `{c'[14:8], c'[6:4], c'[2]}`. -/
def unrolledExtract1511 (c : Bus) : Bus :=
  (c.extractLsb' 8 7 ++ c.extractLsb' 4 3 ++ c.extractLsb' 2 1).setWidth 64

end Sys2Proof.Machine
end

