-- ==== Sys2Proof/Machine/GeneralCodec.lean ====
section
/-! DEFINITION. The general codec's commands `CFG`, `ENC.G`, `DEC.G` (spec/41_general_codec.md R127
to R129). -/

namespace Sys2Proof.Machine

/-- `zext_64({k[7:0], n[7:0]})`: what a successful `CFG` reports (R127). -/
def configReply (r : Nat) : Bus :=
  (BitVec.ofNat 8 (dataLength r) ++ BitVec.ofNat 8 (codeLength r)).setWidth 64

/-- `CFG r` (R127). -/
def execCfg (r : Nat) (s : State) : Host.Outcome State Fault Refusal :=
  if r = 0 ∨ r > s.rMax.toNat then .next (raise .invalidParameter s)
  else .next (respond .ok (configReply r) 0 (writeConfig r s))

/-- `NOT_CONFIGURED` before anything else while `CFG_VALID = 0`, else the command at `r = CFG_R`
(R128, R129, R172, R176). -/
def withGeneralCodec (s : State) (run : Nat → Host.Outcome State Fault Refusal) :
    Host.Outcome State Fault Refusal :=
  if s.cfgValid then run s.cfgR.toNat else .next (raise .notConfigured s)

/-- `ENC.G len` (R128). -/
def execEncG (len : Nat) (s : State) : Host.Outcome State Fault Refusal :=
  withGeneralCodec s (fun r => encodeBlock r len s)

/-- `DEC.G len` (R129). -/
def execDecG (len : Nat) (s : State) : Host.Outcome State Fault Refusal :=
  withGeneralCodec s (fun r => decodeBlock r len s)

end Sys2Proof.Machine
end

