-- ==== Sys2Proof/Machine/Dispatch.lean ====
section
/-! DEFINITION. One arm per command (spec/30_encoding.md R72). -/

namespace Sys2Proof.Machine

/-- What a decoded command does (R72). -/
def exec (i : Instr) (s : State) : Host.Outcome State Fault Refusal :=
  match i with
  | .cfg r => Sys2Proof.Machine.execCfg r s
  | .encG len => Sys2Proof.Machine.execEncG len s
  | .decG len => Sys2Proof.Machine.execDecG len s
  | .enc74 len => Sys2Proof.Machine.execEnc74 len s
  | .dec74 len => Sys2Proof.Machine.execDec74 len s
  | .enc1511 len => Sys2Proof.Machine.execEnc1511 len s
  | .dec1511 len => Sys2Proof.Machine.execDec1511 len s
  | .isPow2 pos => Sys2Proof.Machine.execIsPow2 pos s
  | .covers parityPos n => Sys2Proof.Machine.execCovers parityPos n s

end Sys2Proof.Machine
end

