-- ==== Sys2Proof/Machine/Transaction.lean ====
section
/-! DEFINITION. One transaction of the port (spec/20_memory.md R46, R47;
spec/70_reset_and_hazards.md R190, R191). -/

namespace Sys2Proof.Machine

/-- The decoded command runs; an illegal word responds `ILLEGAL_COMMAND` whatever the state and
`DIN` (R74, R172, R177). -/
def runWord (cmd : Word) (s : State) : Host.Outcome State Fault Refusal :=
  match decode cmd with
  | .ok i => exec i s
  | .error _ => .next (raise .illegalCommand s)

/-- One command, taken from the port and run to its response (R47). -/
def serve (c : Command) (rest : List HostEvent) (s : State) : Host.Outcome State Fault Refusal :=
  runWord c.cmd (accept c rest s)

/-- The core serves the oldest presentation (R46). A command that reset overtakes either completes,
and reset takes effect next, or is discarded and reset takes effect now (R191; log 5). With nothing
presented the core does nothing (R186). -/
def serveOldest (s : State) : Host.Outcome State Fault Refusal :=
  match s.pending with
  | [] => .next (idle s)
  | .command c :: rest => serve c rest s
  | .reset :: rest => .next (takeReset rest s)
  | .commandThenReset c :: rest =>
    if Config.freeCompletes s.draws then serve c (.reset :: rest) s
    else .next (takeReset rest (discard s))

/-- The command at the head of the port: what the next step serves. -/
def presentFirst (c : Command) (s : State) : State :=
  { s with pending := .command c :: s.pending }

end Sys2Proof.Machine
end

