-- ==== Sys2Proof/Machine/Step.lean ====
section
/-! DEFINITION. One step: one transaction, one reset, or one idle moment (spec/00_scope.md R10,
spec/20_memory.md R46). -/

namespace Sys2Proof.Machine

/-- One step of the machine. -/
def step (s : State) : Host.Outcome State Fault Refusal := serveOldest s

/-- The opcode table's word presented on `CMD`, ahead of whatever is pending, with `DIN` as it stands
at the port: the next step serves exactly it (log 2, log 10). -/
def State.withFetchWord (s : State) (nbits w : Nat) : State :=
  presentFirst ⟨tableWord nbits w, s.din⟩ s

end Sys2Proof.Machine
end

