-- ==== Sys2Proof/Machine/Assembler.lean ====
section
/-! DEFINITION. The host-side assembly language (spec/30_encoding.md R78 to R80). No behaviour of the
core depends on it (decision D31). Text is a list of characters. -/

namespace Sys2Proof.Machine

/-- One line's command (R78, R79). -/
inductive AsmLine where
  /-- A core form; the `din` operand is 0 for the forms that have none (log 14). -/
  | core (i : Instr) (din : Nat)
  /-- `enc.74 din` (R79). -/
  | shortEnc74 (din : Nat)
  /-- `dec.74 din` (R79). -/
  | shortDec74 (din : Nat)
  /-- `enc.1511 din` (R79). -/
  | shortEnc1511 (din : Nat)
  /-- `dec.1511 din` (R79). -/
  | shortDec1511 (din : Nat)
  /-- `.cmd word, din`: the raw word (R78). -/
  | raw (word din : Nat)
deriving DecidableEq, Repr

/-! ## Assembling -/

/-- The command of a core form; none is an assembly error: an operand that does not fit its field
(R78), or a `din` above 64 bits (log 14). -/
def assembleCore (i : Instr) (din : Nat) : Option Command :=
  if i.wf && decide (din < 2 ^ 64) then some ⟨encode i, BitVec.ofNat 64 din⟩ else none

/-- The command of a line (R78 to R80). -/
def assemble : AsmLine → Option Command
  | .core i din => assembleCore i din
  | .shortEnc74 din => assembleCore (.enc74 4) din
  | .shortDec74 din => assembleCore (.dec74 7) din
  | .shortEnc1511 din => assembleCore (.enc1511 11) din
  | .shortDec1511 din => assembleCore (.dec1511 15) din
  | .raw word din =>
    if word < 2 ^ 32 ∧ din < 2 ^ 64 then some ⟨BitVec.ofNat 32 word, BitVec.ofNat 64 din⟩ else none

/-! ## Reading a line -/

/-- The value of a digit below `base`. -/
def digitValue (base : Nat) (c : Char) : Option Nat :=
  let v :=
    if '0'.toNat ≤ c.toNat ∧ c.toNat ≤ '9'.toNat then c.toNat - '0'.toNat
    else if 'a'.toNat ≤ c.toNat ∧ c.toNat ≤ 'f'.toNat then c.toNat - 'a'.toNat + 10
    else if 'A'.toNat ≤ c.toNat ∧ c.toNat ≤ 'F'.toNat then c.toNat - 'A'.toNat + 10
    else base
  if v < base then some v else none

/-- Digits, most significant first. -/
def readDigits (base : Nat) : Nat → List Char → Option Nat
  | acc, [] => some acc
  | acc, c :: cs =>
    match digitValue base c with
    | some v => readDigits base (acc * base + v) cs
    | none => none

/-- "numbers are decimal or `0x` hexadecimal" (R78). -/
def readNumber : List Char → Option Nat
  | '0' :: 'x' :: c :: cs => readDigits 16 0 (c :: cs)
  | [] => none
  | c :: cs => readDigits 10 0 (c :: cs)

/-- White space inside a line (log 14). -/
def isBlank (c : Char) : Bool := c == ' ' || c == '\t' || c == '\r'

/-- Without the white space at both ends. -/
def trimBlanks (cs : List Char) : List Char :=
  ((cs.dropWhile isBlank).reverse.dropWhile isBlank).reverse

/-- Comma-separated numbers; none if one of them is no number. -/
def readOperands (cs : List Char) : Option (List Nat) :=
  if cs.isEmpty then some [] else ((cs.splitOn ',').map trimBlanks).mapM readNumber

/-- A mnemonic with its operands (R78, R79). -/
def lineOf (name : List Char) (operands : List Nat) : Option AsmLine :=
  match name, operands with
  | ['c', 'f', 'g'], [r] => some (.core (.cfg r) 0)
  | ['e', 'n', 'c', '.', 'g'], [len, din] => some (.core (.encG len) din)
  | ['d', 'e', 'c', '.', 'g'], [len, din] => some (.core (.decG len) din)
  | ['e', 'n', 'c', '.', '7', '4'], [len, din] => some (.core (.enc74 len) din)
  | ['d', 'e', 'c', '.', '7', '4'], [len, din] => some (.core (.dec74 len) din)
  | ['e', 'n', 'c', '.', '1', '5', '1', '1'], [len, din] => some (.core (.enc1511 len) din)
  | ['d', 'e', 'c', '.', '1', '5', '1', '1'], [len, din] => some (.core (.dec1511 len) din)
  | ['i', 's', 'p', 'o', 'w', '2'], [pos] => some (.core (.isPow2 pos) 0)
  | ['c', 'o', 'v', 'e', 'r', 's'], [p, n] => some (.core (.covers p n) 0)
  | ['.', 'c', 'm', 'd'], [word, din] => some (.raw word din)
  | ['e', 'n', 'c', '.', '7', '4'], [din] => some (.shortEnc74 din)
  | ['d', 'e', 'c', '.', '7', '4'], [din] => some (.shortDec74 din)
  | ['e', 'n', 'c', '.', '1', '5', '1', '1'], [din] => some (.shortEnc1511 din)
  | ['d', 'e', 'c', '.', '1', '5', '1', '1'], [din] => some (.shortDec1511 din)
  | _, _ => none

/-- What one line of text holds. -/
inductive LineReading where
  /-- Nothing but white space and a comment. -/
  | blank
  /-- A command. -/
  | line (l : AsmLine)
  /-- No line of the language. -/
  | error
deriving DecidableEq, Repr

/-- One line: "one command per line; `;` starts a comment" (R78). -/
def readLine (text : List Char) : LineReading :=
  match trimBlanks (text.takeWhile (· != ';')) with
  | [] => .blank
  | c :: cs =>
    let code := c :: cs
    match readOperands (trimBlanks (code.dropWhile (fun x => !isBlank x))) with
    | none => .error
    | some operands =>
      match lineOf (code.takeWhile (fun x => !isBlank x)) operands with
      | some l => .line l
      | none => .error

/-- The commands of already separated lines, in order; none if a line is an assembly error. -/
def assembleLines : List (List Char) → Option (List Command)
  | [] => some []
  | text :: rest =>
    match readLine text with
    | .blank => assembleLines rest
    | .error => none
    | .line l => do
      let c ← assemble l
      let cs ← assembleLines rest
      pure (c :: cs)

/-- A program text, one command a line (R78). -/
def assembleText (text : List Char) : Option (List Command) := assembleLines (text.splitOn '\n')

end Sys2Proof.Machine
end

