-- ==== Sys2Proof/Machine/Driver.lean ====
section
/-! DEFINITION. The host-side byte driver (spec/20_memory.md R55 to R62): "a procedure run by the
host on top of the core's commands", no hardware of the core. It talks to the core through `step`
alone. -/

namespace Sys2Proof.Machine

/-- The codec a driver uses, "whose `n` and `k` it knows" (R55): the general codec after a successful
`CFG` of this `r` (log 13), Hamming74, or Hamming1511. -/
inductive Codec where
  | general (r : Nat)
  | hamming74
  | hamming1511
deriving DecidableEq, Repr

/-- The number of parity bits of the codec (R30, R120). -/
def Codec.r : Codec → Nat
  | .general r => r
  | .hamming74 => hamming74R
  | .hamming1511 => hamming1511R

/-- The codec's codeword length `n`. -/
def Codec.n (c : Codec) : Nat := codeLength c.r

/-- The codec's data length `k`. -/
def Codec.k (c : Codec) : Nat := dataLength c.r

/-- The codec's `ENC.*` command with `LEN = k` (R55). -/
def Codec.encodeInstr (c : Codec) : Instr :=
  match c with
  | .general r => .encG (dataLength r)
  | .hamming74 => .enc74 (dataLength hamming74R)
  | .hamming1511 => .enc1511 (dataLength hamming1511R)

/-- The codec's `DEC.*` command with `LEN = n` (R55). -/
def Codec.decodeInstr (c : Codec) : Instr :=
  match c with
  | .general r => .decG (codeLength r)
  | .hamming74 => .dec74 (codeLength hamming74R)
  | .hamming1511 => .dec1511 (codeLength hamming1511R)

/-- How the driver fails. -/
inductive DriverError where
  /-- `InvalidInput`: a codec with `k = 0` (R55) or a length above the decoded data (R59). -/
  | invalidInput
  /-- The core answered a command with an error status (log 12). -/
  | errorStatus (st : Status)
  /-- The core gave no response (log 12). -/
  | noResponse
  /-- A plan names a block that does not exist or leaves one out (log 13). -/
  | badPlan
deriving DecidableEq, Repr

/-! ## Issuing commands -/

/-- One command issued to the core, its response read. DESIGN CHOICE (log 18): the command enters at
the head of the port, ahead of whatever other hosts have pending; the spec leaves that order open (R50),
and `issuePlanned` takes it as an argument. DESIGN CHOICE (log 20): no reset overtakes the driver's own
outstanding command, which R191 would admit; the spec gives the driver nothing for a discarded one. -/
def issue (c : Command) (s : State) : Except DriverError (Response × State) :=
  match step (presentFirst c s) with
  | .next t =>
    match t.response with
    | some r => if r.status.isError then .error (.errorStatus r.status) else .ok (r, t)
    | none => .error .noResponse
  | .fault _ => .error .noResponse
  | .refused _ => .error .noResponse

/-- Commands issued one after the other with nothing of another host's between them (log 13, log 18),
their responses in order. -/
def issueAll : List Command → State → Except DriverError (List Response × State)
  | [], s => .ok ([], s)
  | c :: cs, s => do
    let (r, t) ← issue c s
    let (rs, u) ← issueAll cs t
    pure (r :: rs, u)

/-! ## Any issue order, several hosts (R50, R62)

"The driver may issue the commands of different blocks in any order or from several host agents", while
other hosts' presentations are served between them in an order the core does not choose. A plan is one
serialization of all of it. -/

/-- One command of the driver's in a serialization: which block it is, and how many presentations of
other hosts the port serves just before it. -/
structure Slot where
  block : Nat
  ahead : Nat
deriving DecidableEq, Repr

/-- The core goes on by one step while the driver waits. -/
def stepOn (s : State) : Except DriverError State :=
  match step s with
  | .next t => .ok t
  | .fault _ => .error .noResponse
  | .refused _ => .error .noResponse

/-- The oldest presentation of another host is served whole: a command that completes before the reset
overtaking it takes a second step, the reset's (R191). -/
def letPass (s : State) : Except DriverError State := do
  let t ← stepOn s
  if t.pending.length < s.pending.length then pure t else stepOn t

/-- So many presentations of other hosts are served. -/
def letPassMany : Nat → State → Except DriverError State
  | 0, s => .ok s
  | k + 1, s => do
    let t ← letPass s
    letPassMany k t

/-- The commands of the blocks issued as the plan says, each response with its block (R62). -/
def issuePlanned : List Slot → List Command → State → Except DriverError (List (Nat × Response) × State)
  | [], _, s => .ok ([], s)
  | slot :: plan, cs, s =>
    match cs[slot.block]? with
    | none => .error .badPlan
    | some c => do
      let t ← letPassMany slot.ahead s
      let (r, u) ← issue c t
      let (rs, v) ← issuePlanned plan cs u
      pure ((slot.block, r) :: rs, v)

/-- The response of a block. -/
def responseOfBlock (rs : List (Nat × Response)) (i : Nat) : Except DriverError Response :=
  match rs.find? (fun x => x.1 == i) with
  | some x => .ok x.2
  | none => .error .badPlan

/-- The responses of the blocks `0, ..., count - 1` in block order "regardless of issue order" (R62). -/
def inBlockOrder (rs : List (Nat × Response)) : Nat → Except DriverError (List Response)
  | 0 => .ok []
  | count + 1 => do
    let before ← inBlockOrder rs count
    let r ← responseOfBlock rs count
    pure (before ++ [r])

/-- The commands issued as the plan says, their responses in block order (R62). -/
def issueInPlan (plan : List Slot) (cs : List Command) (s : State) :
    Except DriverError (List Response × State) := do
  let (rs, t) ← issuePlanned plan cs s
  let ordered ← inBlockOrder rs cs.length
  pure (ordered, t)

/-! ## Bytes and bit streams (R56, R57) -/

/-- The bits of a byte, most significant first: `s[8j + t] = B[j][7 - t]` (R56). -/
def bitsOfByte (b : Byte) : List Bool := (List.range 8).map (fun t => b.getLsbD (7 - t))

/-- Byte to bit stream (R56). -/
def bitsOfBytes (bytes : List Byte) : List Bool := bytes.flatMap bitsOfByte

/-- `count` blocks of `len` bits of a stream, block `c` holding `s[c*len + i]`, 0 past the stream's
end (R57, R58, R59). -/
def blocks (len count : Nat) (stream : List Bool) : List (List Bool) :=
  (List.range count).map (fun c => (List.range len).map (fun i => stream.getD (c * len + i) false))

/-- The byte with `B[7 - t]` the block's bit `t` (R57). -/
def byteOfBits (block : List Bool) : Byte :=
  (List.range 8).foldl (fun v t => if block.getD t false then v ||| (1#8 <<< (7 - t)) else v) 0

/-- Bit stream to bytes: `ceil(L / 8)` bytes, the bits beyond `L` 0 (R57). -/
def bytesOfBits (stream : List Bool) : List Byte :=
  (blocks 8 ((stream.length + 7) / 8) stream).map byteOfBits

/-! ## encode_bytes (R58) -/

/-- The output of `encode_bytes`: the packed codewords and the padding count. -/
structure Encoded where
  bytes : List Byte
  pad : Nat
deriving DecidableEq, Repr

/-- `pad = (k - (L mod k)) mod k` (R58). -/
def padCount (k L : Nat) : Nat := (k - L % k) % k

/-- The `ENC.*` commands of a byte sequence: `ceil(L / k)` chunks (R58). DESIGN CHOICE (log 21): the
`DIN` bits at `k` and above, which R58 does not name (U6), are driven 0. -/
def encodeCommands (c : Codec) (input : List Byte) : List Command :=
  let stream := bitsOfBytes input
  (blocks c.k ((stream.length + c.k - 1) / c.k) stream).map
    (fun chunk => ⟨encode c.encodeInstr, busOf chunk⟩)

/-- The output of `encode_bytes` from the responses in chunk order (R58). -/
def encodedOf (c : Codec) (input : List Byte) (rs : List Response) : Encoded :=
  ⟨bytesOfBits (rs.flatMap (fun r => bitsOf c.n r.dout)), padCount c.k (bitsOfBytes input).length⟩

/-- `encode_bytes(input, C)` (R55, R58), the commands in chunk order. -/
def encodeBytes (c : Codec) (input : List Byte) (s : State) : Except DriverError (Encoded × State) :=
  if c.k = 0 then .error .invalidInput
  else do
    let (rs, t) ← issueAll (encodeCommands c input) s
    pure (encodedOf c input rs, t)

/-- `encode_bytes(input, C)` with its commands issued as the plan says: the output order is chunk order
whatever the issue order (R62). -/
def encodeBytesInPlan (plan : List Slot) (c : Codec) (input : List Byte) (s : State) :
    Except DriverError (Encoded × State) :=
  if c.k = 0 then .error .invalidInput
  else do
    let (rs, t) ← issueInPlan plan (encodeCommands c input) s
    pure (encodedOf c input rs, t)

/-! ## decode_bytes (R59, R60) -/

/-- The output of `decode_bytes`: the packed data and the corrected positions, each with its codeword
index (R60). -/
structure DecodedBytes where
  bytes : List Byte
  corrections : List (Nat × Nat)
deriving DecidableEq, Repr

/-- The `DEC.*` commands of a byte sequence: `floor(E / n)` codewords (R59). DESIGN CHOICE (log 21): the
`DIN` bits at `n` and above, which R59 does not name (U6), are driven 0. -/
def decodeCommands (c : Codec) (input : List Byte) : List Command :=
  let stream := bitsOfBytes input
  (blocks c.n (stream.length / c.n) stream).map (fun word => ⟨encode c.decodeInstr, busOf word⟩)

/-- The pair `(c, SYN)` of each response that is `CORRECTED`, in codeword order (R60). -/
def correctionsOf (rs : List Response) : List (Nat × Nat) :=
  rs.zipIdx.filterMap
    (fun x => if x.1.status = .corrected then some (x.2, x.1.syn.toNat) else none)

/-- Truncation "to `original_bit_length` if provided"; a length above the data is `InvalidInput`
(R59). -/
def truncateTo (originalBitLength : Option Nat) (data : List Bool) : Except DriverError (List Bool) :=
  match originalBitLength with
  | none => .ok data
  | some l => if l > data.length then .error .invalidInput else .ok (data.take l)

/-- The output of `decode_bytes` from the responses in codeword order (R59, R60). -/
def decodedOf (c : Codec) (originalBitLength : Option Nat) (rs : List Response) :
    Except DriverError DecodedBytes := do
  let data ← truncateTo originalBitLength (rs.flatMap (fun r => bitsOf c.k r.dout))
  pure ⟨bytesOfBits data, correctionsOf rs⟩

/-- `decode_bytes(input, C, original_bit_length)` (R55, R59, R60), the commands in codeword order. -/
def decodeBytes (c : Codec) (input : List Byte) (originalBitLength : Option Nat) (s : State) :
    Except DriverError (DecodedBytes × State) :=
  if c.k = 0 then .error .invalidInput
  else do
    let (rs, t) ← issueAll (decodeCommands c input) s
    let d ← decodedOf c originalBitLength rs
    pure (d, t)

/-- `decode_bytes(input, C, original_bit_length)` with its commands issued as the plan says: the output
order is codeword order whatever the issue order (R62). -/
def decodeBytesInPlan (plan : List Slot) (c : Codec) (input : List Byte)
    (originalBitLength : Option Nat) (s : State) : Except DriverError (DecodedBytes × State) :=
  if c.k = 0 then .error .invalidInput
  else do
    let (rs, t) ← issueInPlan plan (decodeCommands c input) s
    let d ← decodedOf c originalBitLength rs
    pure (d, t)

end Sys2Proof.Machine
end

