-- ==== Sys2Proof/Safety.lean ====
section
/-! DEFINITION. What counts as a safe run, the invariant, and the traces statements speak of. -/

namespace Sys2Proof.Machine

/-- The step goes on: "Every command completes" (spec/70_reset_and_hazards.md R197). -/
def Goes (s : State) : Prop := ∃ t, step s = .next t

/-- `k` steps without a fault or a refusal. -/
def SafeRun (k : Nat) (s : State) : Prop := ∃ t, Sys2Proof.core.run k s = .next t

/-- `CFG_R` holds a legal value whenever `CFG_VALID = 1`: "a value outside that range is never
written" (spec/10_state.md R22). -/
abbrev State.LegalConfig (s : State) : Prop :=
  s.cfgValid = true → 1 ≤ s.cfgR.toNat ∧ s.cfgR.toNat ≤ s.rMax.toNat

/-- A response of the shape R170, R171 and R126 allow on a core whose longest codeword has `nMax`
positions: an error carries zeros; `OK` has syndrome 0; `CORRECTED` names a position; code 4 is never
produced (R175). -/
abbrev Response.Legal (nMax : Nat) (r : Response) : Prop :=
  (r.status.isError = true → r.dout = 0 ∧ r.syn = 0) ∧
  (r.status = .ok → r.syn = 0) ∧
  (r.status = .corrected → 1 ≤ r.syn.toNat ∧ r.syn.toNat ≤ nMax) ∧
  r.status ≠ .invalidLength

/-- The invariant every step keeps: a legal configuration, and a legal response if there is one. -/
abbrev State.Inv (s : State) : Prop :=
  s.LegalConfig ∧ ∀ r ∈ s.response, r.Legal (codeLength s.rMax.toNat)

/-- The response of an outcome, if it went on and gave one. -/
def responseOf : Host.Outcome State Fault Refusal → Option Response
  | .next t => t.response
  | .fault _ => none
  | .refused _ => none

/-- The responses of the first `k` steps, in order. -/
def trace : Nat → State → List Response
  | 0, _ => []
  | k + 1, s =>
    match step s with
    | .next t => t.response.toList ++ trace k t
    | .fault _ => []
    | .refused _ => []

/-- The responses to a sequence of commands presented to an otherwise empty port (R46). -/
def responsesTo (cs : List Command) (s : State) : List Response :=
  trace cs.length { s with pending := cs.map .command }

/-- How many low bits of `DIN` the command reads: `k` for `ENC.*`, `n` for `DEC.*`, none otherwise
(spec/20_memory.md R43, spec/30_encoding.md R77). -/
def inputBits (i : Instr) (s : State) : Nat :=
  match i with
  | .cfg _ => 0
  | .encG _ => dataLength s.cfgR.toNat
  | .decG _ => codeLength s.cfgR.toNat
  | .enc74 _ => 4
  | .dec74 _ => 7
  | .enc1511 _ => 11
  | .dec1511 _ => 15
  | .isPow2 _ => 0
  | .covers _ _ => 0

/-- How many low bits of `DOUT` the command's rule names: `n` for `ENC.*`, `k` for `DEC.*`, 16 for
`CFG`, 1 for `ISPOW2`, `n` for `COVERS` (spec/20_memory.md R44). -/
def outputBits (i : Instr) (s : State) : Nat :=
  match i with
  | .cfg _ => 16
  | .encG _ => codeLength s.cfgR.toNat
  | .decG _ => dataLength s.cfgR.toNat
  | .enc74 _ => 7
  | .dec74 _ => 4
  | .enc1511 _ => 15
  | .dec1511 _ => 11
  | .isPow2 _ => 1
  | .covers _ n => n

/-- The core is ready for a driver that uses codec `c`: for the general codec, the successful `CFG` of
its `r` (spec/20_memory.md R55); the fixed codecs need nothing (R30). -/
abbrev Codec.Ready (c : Codec) (s : State) : Prop :=
  ∀ r, c = .general r → s.LegalConfig ∧ s.cfgValid = true ∧ s.cfgR.toNat = r

/-- What other hosts have pending keeps the codec's configuration: "provided the codec's configuration
is the same for all of them" (spec/20_memory.md R62). For the general codec no reset, and no `CFG` that
succeeds with another `r`; the fixed codecs have no configuration (R30). -/
def Codec.Undisturbed (c : Codec) (s : State) : Prop :=
  ∀ r, c = .general r → ∀ e ∈ s.pending, ∃ cmd, e = .command cmd ∧
    ∀ r', decode cmd.cmd = .ok (.cfg r') → r' = r ∨ r' = 0 ∨ s.rMax.toNat < r'

/-- The plan issues each of `count` blocks once, in some order (spec/20_memory.md R62). -/
abbrev IssuesEachBlockOnce (plan : List Slot) (count : Nat) : Prop :=
  (plan.map (·.block)).Perm (List.range count)

/-- `zs` is a serialization of two hosts' sequences `xs` and `ys`: "serialized at the port in some
order the core does not choose" (spec/20_memory.md R50). -/
inductive Interleaves {α : Type} : List α → List α → List α → Prop where
  | done : Interleaves [] [] []
  | first {xs ys zs : List α} (x : α) : Interleaves xs ys zs → Interleaves (x :: xs) ys (x :: zs)
  | second {xs ys zs : List α} (y : α) : Interleaves xs ys zs → Interleaves xs (y :: ys) (y :: zs)

end Sys2Proof.Machine
end

