-- ==== Sys2Proof/Certificates/Slice0/Obligations.lean ====
section
/-! DEFINITION. The statements for the provers: what the spec's rules say, of this model. -/

open Sys2Proof Sys2Proof.Machine

/-! ## Encoding (spec/30_encoding.md) -/

/-- Decoding the word of a well-formed command gives the command back (R70, R72, R80). -/
def Obligations.DecodeOfEncode : Prop :=
  ∀ i : Instr, i.wf = true → decode (encode i) = .ok i

/-- A legal word has one meaning: it is the word of the well-formed command it decodes to (R73, R74). -/
def Obligations.EncodeOfDecode : Prop :=
  ∀ (w : Word) (i : Instr), decode w = .ok i → i.wf = true ∧ encode i = w

/-- "A word `w` is the mnemonic `m` iff `(w & mask_m) == match_m`. At most one row matches any word"
(R73), the procedure of R76 finds that mnemonic, and a word that matches no row is illegal. -/
def Obligations.MatchAndMaskSelectTheCommand : Prop :=
  ∀ w : Word,
    (∀ row ∈ opcodeRows,
      w &&& row.mask = row.matchWord ↔ ∃ i, decode w = .ok i ∧ i.mnemonic = row.mnemonic) ∧
    (∀ a ∈ opcodeRows, ∀ b ∈ opcodeRows,
      w &&& a.mask = a.matchWord → w &&& b.mask = b.matchWord → a = b) ∧
    (∀ i, decode w = .ok i → mnemonicOf w = some i.mnemonic) ∧
    (mnemonicOf w = none ↔ ∃ e, decode w = .error e)

/-- The decoder refuses exactly the words R74 calls illegal, `illegalWord` being the fields of R74. -/
def Obligations.DecoderRefusesExactlyIllegalWords : Prop :=
  ∀ w : Word, (∃ e, decode w = .error e) ↔ illegalWord w = true

/-- The example words of R80 decode to the commands they stand for, and the all-zero word is illegal
(R74). -/
def Obligations.ExampleWordsDecode : Prop :=
  decode 0x00001801 = .ok (.cfg 3) ∧ decode 0x00002001 = .ok (.cfg 4) ∧
  decode 0x00000042 = .ok (.encG 4) ∧ decode 0x00000073 = .ok (.decG 7) ∧
  decode 0x00000044 = .ok (.enc74 4) ∧ decode 0x00000075 = .ok (.dec74 7) ∧
  decode 0x000000B6 = .ok (.enc1511 11) ∧ decode 0x000000F7 = .ok (.dec1511 15) ∧
  decode 0x00004008 = .ok (.isPow2 8) ∧ decode 0x003C2009 = .ok (.covers 4 15) ∧
  (∃ e, decode 0x00000000 = .error e)

/-! ## Steps, resets and runs (spec/20_memory.md, spec/70_reset_and_hazards.md) -/

/-- A step serves the oldest command: it samples `DIN` and runs the decoded command on the state all
earlier commands left (R46, R47); with nothing presented it does nothing (R186; log 2, log 8, log 9). -/
def Obligations.StepRunsTheDecodedCommand : Prop :=
  (∀ (s : State) (c : Command) (rest : List HostEvent) (i : Instr),
    s.pending = .command c :: rest → decode c.cmd = .ok i →
      step s = exec i { s with
        pending := rest, din := c.din, response := none, draws := s.draws + 1 }) ∧
  (∀ s : State, s.pending = [] → step s = .next { s with response := none })

/-- "`ILLEGAL_COMMAND` is raised for every command word that rule R74 calls illegal ... whatever the
state and `DIN`" (R177), before any other check (R172), with zeros and no state change (R74). -/
def Obligations.IllegalCommandResponds : Prop :=
  ∀ (s : State) (c : Command) (rest : List HostEvent),
    s.pending = .command c :: rest → illegalWord c.cmd = true →
      step s = .next { s with
        pending := rest, din := c.din, draws := s.draws + 1,
        response := some ⟨.illegalCommand, 0, 0⟩ }

/-- A reset clears `CFG_VALID` and produces no response (R31, R190); a second reset straight after it
leaves the same configuration (R190; that `CFG_R` too is the same is the model's free value, log 4). -/
def Obligations.ResetEventClearsTheConfiguration : Prop :=
  ∀ (s : State) (rest : List HostEvent), s.pending = .reset :: rest →
    ∃ t, step s = .next t ∧ t.cfgValid = false ∧ t.response = none ∧ t.pending = rest ∧
      t.rMax = s.rMax ∧
      ∀ rest', rest = .reset :: rest' →
        ∃ u, step t = .next u ∧ u.cfgValid = t.cfgValid ∧ u.cfgR = t.cfgR ∧ u.response = none

/-- A reset asserted while a command is outstanding: the command completes with its full response and
reset takes effect next, or reset takes effect now and the command is discarded without a response and
without a state write (R191, U3). Which of the two is the model's free value (log 5). -/
def Obligations.ResetOvertakesOutstandingCommand : Prop :=
  ∀ (s : State) (c : Command) (rest : List HostEvent), s.pending = .commandThenReset c :: rest →
    (∃ t r, step s = .next t ∧ t.response = some r ∧ t.pending = .reset :: rest ∧
      step { s with pending := .command c :: .reset :: rest } = .next t) ∨
    (∃ t, step s = .next t ∧ t.response = none ∧ t.pending = rest ∧ t.cfgValid = false ∧
      t.rMax = s.rMax)

/-- "For every state and every `CMD` and `DIN`, the core produces exactly one response", and "there is
no stuck state, wait or hang": every step goes on (R197). -/
def Obligations.EveryCommandCompletes : Prop :=
  (∀ (s : State) (c : Command) (rest : List HostEvent), s.pending = .command c :: rest →
    ∃ t r, step s = .next t ∧ t.response = some r ∧ t.pending = rest) ∧
  (∀ s : State, Goes s)

/-- No run of any length ends in a fault or a refusal (R197). -/
def Obligations.RunsNeverStop : Prop :=
  ∀ (k : Nat) (s : State), SafeRun k s

/-- The machine after reset is unconfigured with the default `R_MAX` (R5, R21) and meets the
invariant, whatever `CFG_R` holds (R31; its value 0 in `State.reset` is log 3). -/
def Obligations.ResetStateMeetsTheInvariant : Prop :=
  State.reset.cfgValid = false ∧ State.reset.rMax = .six ∧ State.reset.pending = [] ∧
    State.reset.response = none ∧ ∀ v : BitVec 3, State.Inv { State.reset with cfgR := v }

/-- Every step keeps the invariant: `CFG_R` is in `1..R_MAX` whenever `CFG_VALID = 1` (R22), and the
response has a legal shape (R126, R170, R171, R175). -/
def Obligations.EveryStepKeepsTheInvariant : Prop :=
  ∀ s t : State, s.Inv → step s = .next t → t.Inv

/-- "State changes only at two events: a `CFG` command that responds `OK` ... and reset" (R32). -/
def Obligations.StateChangesOnlyByCfgAndReset : Prop :=
  ∀ s t : State, step s = .next t →
    t.rMax = s.rMax ∧
    ((t.cfgValid = s.cfgValid ∧ t.cfgR = s.cfgR) ∨
     (∃ c rest r d, (s.pending = .command c :: rest ∨ s.pending = .commandThenReset c :: rest) ∧
        decode c.cmd = .ok (.cfg r) ∧ 1 ≤ r ∧ r ≤ s.rMax.toNat ∧
        t.cfgValid = true ∧ t.cfgR.toNat = r ∧ t.response = some ⟨.ok, d, 0⟩) ∨
     (t.cfgValid = false ∧ t.response = none ∧
        ∃ rest, s.pending = .reset :: rest ∨ ∃ c, s.pending = .commandThenReset c :: rest))

/-! ## Status codes (spec/60_exceptions.md) -/

/-- "A command that ends with an error status (codes 2 to 6) responds with `DOUT = 0` and `SYN = 0`
and writes no state" (R171); the next command runs as if the error had not happened (R182). -/
def Obligations.ErrorResponsesWriteNothing : Prop :=
  ∀ (s t : State) (r : Response), step s = .next t → t.response = some r →
    (2 ≤ r.status.code.toNat ∧ r.status.code.toNat ≤ 6) →
      r.dout = 0 ∧ r.syn = 0 ∧ t.cfgValid = s.cfgValid ∧ t.cfgR = s.cfgR ∧
      ∀ (c : Command) (rest : List HostEvent),
        ∃ u v, step { t with pending := .command c :: rest } = .next u ∧
          step { s with pending := .command c :: rest } = .next v ∧
          u.response = v.response ∧ u.cfgValid = v.cfgValid ∧ u.cfgR = v.cfgR

/-- "`INVALID_LENGTH` is never produced" (R175): neither as a status (code 4; nor the reserved code 7)
nor as the fault the model keeps for the unreachable branch (log 7). -/
def Obligations.InvalidLengthIsNeverProduced : Prop :=
  ∀ s : State,
    (∀ f, step s ≠ .fault f) ∧
    ∀ t r, step s = .next t → t.response = some r → r.status.code ≠ 4 ∧ r.status.code ≠ 7

/-- Each status has its code and comes only from the commands R170 names. -/
def Obligations.StatusesComeFromTheirCommands : Prop :=
  (Status.ok.code = 0 ∧ Status.corrected.code = 1 ∧ Status.invalidParameter.code = 2 ∧
    Status.invalidInput.code = 3 ∧ Status.invalidLength.code = 4 ∧ Status.notConfigured.code = 5 ∧
    Status.illegalCommand.code = 6) ∧
  ∀ (i : Instr) (s t : State) (r : Response), exec i s = .next t → t.response = some r →
    (r.status = .corrected → ∃ len, i = .decG len ∨ i = .dec74 len ∨ i = .dec1511 len) ∧
    (r.status = .invalidParameter → ∃ n, i = .cfg n ∧ (n = 0 ∨ s.rMax.toNat < n)) ∧
    (r.status = .invalidInput →
      (∃ len, i = .encG len ∨ i = .decG len ∨ i = .enc74 len ∨ i = .dec74 len ∨
        i = .enc1511 len ∨ i = .dec1511 len) ∨ ∃ p n, i = .covers p n ∧ 64 < n) ∧
    (r.status = .notConfigured → s.cfgValid = false ∧ ∃ len, i = .encG len ∨ i = .decG len) ∧
    r.status ≠ .invalidLength ∧ r.status ≠ .illegalCommand

/-- What a command leaves unchanged: the parameter, the port and its pending presentations always, and
`CFG_VALID` and `CFG_R` unless it is `CFG` (R32, R47). -/
def Obligations.ExecFrame : Prop :=
  ∀ (i : Instr) (s t : State), exec i s = .next t →
    t.rMax = s.rMax ∧ t.pending = s.pending ∧ t.din = s.din ∧ t.draws = s.draws ∧
    ((∀ r, i ≠ .cfg r) → t.cfgValid = s.cfgValid ∧ t.cfgR = s.cfgR)

/-! ## What each command does: result and completion -/

/-- `CFG r` (R127, R173): `INVALID_PARAMETER` with no state change exactly when `r = 0` or
`r > R_MAX`, else `CFG_R <- r`, `CFG_VALID <- 1`, and `DOUT[7:0] = n`, `DOUT[15:8] = k`. -/
def Obligations.CfgResult : Prop :=
  ∀ (r : Nat) (s : State),
    ((r = 0 ∨ s.rMax.toNat < r) →
      exec (.cfg r) s = .next { s with response := some ⟨.invalidParameter, 0, 0⟩ }) ∧
    (1 ≤ r → r ≤ s.rMax.toNat →
      exec (.cfg r) s = .next { s with
        cfgValid := true, cfgR := BitVec.ofNat 3 r,
        response := some ⟨.ok, BitVec.ofNat 64 ((2 ^ r - 1) + 256 * (2 ^ r - 1 - r)), 0⟩ })

/-- `ENC.G len` (R128): `NOT_CONFIGURED` first (R172), then the length check, then the codeword of
`DIN[k-1:0]` (`hammingEncode`, R122); no state is written. -/
def Obligations.EncGResult : Prop :=
  ∀ (len : Nat) (s : State),
    (s.cfgValid = false →
      exec (.encG len) s = .next { s with response := some ⟨.notConfigured, 0, 0⟩ }) ∧
    (s.cfgValid = true → len ≠ 2 ^ s.cfgR.toNat - 1 - s.cfgR.toNat →
      exec (.encG len) s = .next { s with response := some ⟨.invalidInput, 0, 0⟩ }) ∧
    (s.cfgValid = true → len = 2 ^ s.cfgR.toNat - 1 - s.cfgR.toNat →
      exec (.encG len) s = .next { s with
        response := some ⟨.ok, hammingEncode s.cfgR.toNat (lowBits len s.din), 0⟩ })

/-- `DEC.G len` (R129): `NOT_CONFIGURED` first (R172), then the length check, then `OK` with the data
of the received word when its syndrome is 0, else `CORRECTED` with the data of the word flipped at the
position `SYN` names; no state is written. -/
def Obligations.DecGResult : Prop :=
  ∀ (len : Nat) (s : State),
    (s.cfgValid = false →
      exec (.decG len) s = .next { s with response := some ⟨.notConfigured, 0, 0⟩ }) ∧
    (s.cfgValid = true → len ≠ 2 ^ s.cfgR.toNat - 1 →
      exec (.decG len) s = .next { s with response := some ⟨.invalidInput, 0, 0⟩ }) ∧
    (s.cfgValid = true → len = 2 ^ s.cfgR.toNat - 1 →
      let r := s.cfgR.toNat
      let c := lowBits len s.din
      (syndrome r c = 0 →
        exec (.decG len) s = .next { s with response := some ⟨.ok, extract r c, 0⟩ }) ∧
      (syndrome r c ≠ 0 →
        exec (.decG len) s = .next { s with
          response := some ⟨.corrected, extract r (flipAt c (syndrome r c)),
            BitVec.ofNat 7 (syndrome r c)⟩ }))

/-- `ENC.74 len` (R153) is the unrolled encoder of R151 on every `DIN`, in every state. -/
def Obligations.Enc74Result : Prop :=
  ∀ (len : Nat) (s : State),
    (len ≠ 4 → exec (.enc74 len) s = .next { s with response := some ⟨.invalidInput, 0, 0⟩ }) ∧
    (len = 4 →
      exec (.enc74 len) s = .next { s with response := some ⟨.ok, unrolledEncode74 s.din, 0⟩ })

/-- `DEC.74 len` (R154) is the unrolled decoder of R152 on every `DIN`, in every state. -/
def Obligations.Dec74Result : Prop :=
  ∀ (len : Nat) (s : State),
    (len ≠ 7 → exec (.dec74 len) s = .next { s with response := some ⟨.invalidInput, 0, 0⟩ }) ∧
    (len = 7 →
      let c := lowBits 7 s.din
      let y := unrolledSyndrome74 c
      exec (.dec74 len) s = .next { s with
        response := some ⟨if y = 0 then .ok else .corrected,
          unrolledExtract74 (unrolledCorrect c y), BitVec.ofNat 7 y⟩ })

/-- `ENC.1511 len` (R157) is the unrolled encoder of R155 on every `DIN`, in every state. -/
def Obligations.Enc1511Result : Prop :=
  ∀ (len : Nat) (s : State),
    (len ≠ 11 → exec (.enc1511 len) s = .next { s with response := some ⟨.invalidInput, 0, 0⟩ }) ∧
    (len = 11 →
      exec (.enc1511 len) s = .next { s with response := some ⟨.ok, unrolledEncode1511 s.din, 0⟩ })

/-- `DEC.1511 len` (R158) is the unrolled decoder of R156 on every `DIN`, in every state. -/
def Obligations.Dec1511Result : Prop :=
  ∀ (len : Nat) (s : State),
    (len ≠ 15 → exec (.dec1511 len) s = .next { s with response := some ⟨.invalidInput, 0, 0⟩ }) ∧
    (len = 15 →
      let c := lowBits 15 s.din
      let y := unrolledSyndrome1511 c
      exec (.dec1511 len) s = .next { s with
        response := some ⟨if y = 0 then .ok else .corrected,
          unrolledExtract1511 (unrolledCorrect c y), BitVec.ofNat 7 y⟩ })

/-- `ISPOW2 pos` (R100, R110) answers 1 exactly for the powers of two, always `OK`. -/
def Obligations.IsPow2Result : Prop :=
  ∀ (pos : Nat) (s : State),
    ((∃ j, pos = 2 ^ j) →
      exec (.isPow2 pos) s = .next { s with response := some ⟨.ok, 1, 0⟩ }) ∧
    ((¬ ∃ j, pos = 2 ^ j) →
      exec (.isPow2 pos) s = .next { s with response := some ⟨.ok, 0, 0⟩ })

/-- `COVERS parity_pos, n` (R111): `INVALID_INPUT` when `n > 64`, else the mask whose bit `x - 1` is
set exactly for the positions `x` in `1..n` with `x & parity_pos != 0`. -/
def Obligations.CoversResult : Prop :=
  ∀ (p n : Nat) (s : State),
    (64 < n → exec (.covers p n) s = .next { s with response := some ⟨.invalidInput, 0, 0⟩ }) ∧
    (n ≤ 64 → ∃ m : Bus,
      exec (.covers p n) s = .next { s with response := some ⟨.ok, m, 0⟩ } ∧
      ∀ b, m.getLsbD b = true ↔ b + 1 ≤ n ∧ (b + 1) &&& p ≠ 0)

/-- After `cfg 3` the general codec answers `LEN = 4` and `LEN = 7` blocks as Hamming74 does, after
`cfg 4` it answers `LEN = 11` and `LEN = 15` blocks as Hamming1511 does, for every `DIN` (R150, R159). -/
def Obligations.FixedCodecsMatchTheGeneralCodec : Prop :=
  ∀ s : State,
    (∃ t, exec (.cfg 3) s = .next t ∧ ∀ d : Bus,
      exec (.encG 4) { t with din := d } = exec (.enc74 4) { t with din := d } ∧
      exec (.decG 7) { t with din := d } = exec (.dec74 7) { t with din := d }) ∧
    (∃ t, exec (.cfg 4) s = .next t ∧ ∀ d : Bus,
      exec (.encG 11) { t with din := d } = exec (.enc1511 11) { t with din := d } ∧
      exec (.decG 15) { t with din := d } = exec (.dec1511 15) { t with din := d })

/-! ## Who can influence what -/

/-- "`DIN` bits at index `k` and above for `ENC.*`, at index `n` and above for `DEC.*`, and all of
`DIN` for `CFG`, `ISPOW2` and `COVERS`, are ignored" (R43). -/
def Obligations.IgnoredDinBits : Prop :=
  ∀ (i : Instr) (s : State) (a b : Bus),
    (∀ j, j < inputBits i s → a.getLsbD j = b.getLsbD j) →
      ∃ t u, exec i { s with din := a } = .next t ∧ exec i { s with din := b } = .next u ∧
        t.response = u.response ∧ t.cfgValid = u.cfgValid ∧ t.cfgR = u.cfgR

/-- "`DOUT` bits at index `n` and above for `ENC.*`, at index `k` and above for `DEC.*`, and every
`DOUT` bit a command's rule does not name, are driven 0" (R44). -/
def Obligations.UnusedOutputBitsAreZero : Prop :=
  ∀ (i : Instr) (s t : State) (r : Response), exec i s = .next t → t.response = some r →
    ∀ b, outputBits i s ≤ b → r.dout.getLsbD b = false

/-- "the result of each command depends only on that command and the configuration" (R50, R135), and
neither the fixed codecs (R30) nor the position utilities (R20, R110, R111, R192) depend on the
configuration. -/
def Obligations.ResponseDependsOnCommandAndConfiguration : Prop :=
  ∀ (i : Instr) (s t : State), s.rMax = t.rMax → s.din = t.din →
    ((s.cfgValid = t.cfgValid ∧ s.cfgR = t.cfgR) ∨
      ((∀ r, i ≠ .cfg r) ∧ (∀ len, i ≠ .encG len) ∧ ∀ len, i ≠ .decG len)) →
      ∃ s' t', exec i s = .next s' ∧ exec i t = .next t' ∧ s'.response = t'.response

/-- `CFG_R` "is unobservable while `CFG_VALID = 0`" (R22, R31): no run, of any length and with any
presentations, tells two of its values apart. -/
def Obligations.CfgRIsUnobservableWhileInvalid : Prop :=
  ∀ (k : Nat) (s : State) (v : BitVec 3), s.cfgValid = false →
    trace k { s with cfgR := v } = trace k s

/-- "`ENC.G` and `DEC.G` respond `NOT_CONFIGURED` until a `CFG` responds `OK`" (R176, R192), in any
sequence of commands without a `CFG` that can succeed. -/
def Obligations.NotConfiguredUntilCfgSucceeds : Prop :=
  ∀ (s : State) (cs : List Command), s.cfgValid = false →
    (∀ c ∈ cs, ∀ r, decode c.cmd = .ok (.cfg r) → r = 0 ∨ s.rMax.toNat < r) →
      (responsesTo cs s).length = cs.length ∧
      ∀ (j : Nat) (c : Command), cs[j]? = some c →
        (∃ len, decode c.cmd = .ok (.encG len) ∨ decode c.cmd = .ok (.decG len)) →
          (responsesTo cs s)[j]? = some ⟨.notConfigured, 0, 0⟩

/-- "a `CFG` takes effect for the very next command" (R194), an `ENC.G` or a `DEC.G`, whatever the
configuration before it. -/
def Obligations.CfgTakesEffectForTheNextCommand : Prop :=
  ∀ (s : State) (r : Nat) (a d : Bus), 1 ≤ r → r ≤ s.rMax.toNat →
    let reply : Response := ⟨.ok, BitVec.ofNat 64 ((2 ^ r - 1) + 256 * (2 ^ r - 1 - r)), 0⟩
    let c := lowBits (2 ^ r - 1) d
    let y := syndrome r c
    responsesTo [⟨encode (.cfg r), a⟩, ⟨encode (.encG (2 ^ r - 1 - r)), d⟩] s =
      [reply, ⟨.ok, hammingEncode r (lowBits (2 ^ r - 1 - r) d), 0⟩] ∧
    responsesTo [⟨encode (.cfg r), a⟩, ⟨encode (.decG (2 ^ r - 1)), d⟩] s =
      [reply, if y = 0 then ⟨.ok, extract r c, 0⟩
        else ⟨.corrected, extract r (flipAt c y), BitVec.ofNat 7 y⟩]

/-- "Decoding after a `CFG` to a different `r` with `LEN` set to the old `n` responds
`INVALID_INPUT`" (R195). -/
def Obligations.WrongConfigurationIsRefused : Prop :=
  ∀ (s : State) (r : Nat), s.cfgValid = true → s.cfgR.toNat ≠ r →
    exec (.decG (2 ^ r - 1)) s = .next { s with response := some ⟨.invalidInput, 0, 0⟩ }

/-- A sequence without `CFG` commands is answered command by command, each as if it alone had been
presented (R46, R50, R62). -/
def Obligations.EachCommandAnswersAsAlone : Prop :=
  ∀ (s : State) (cs : List Command),
    (∀ c ∈ cs, ∀ r, decode c.cmd ≠ .ok (.cfg r)) →
      responsesTo cs s = cs.flatMap (fun c => responsesTo [c] s)

/-- Two hosts that share the port without reconfiguring it: under every serialization every command is
answered, and each host's commands get the responses they would get if that host were alone; commands
and responses are paired, so that the interleaving of the responses is that of the commands (R50). -/
def Obligations.HostsShareThePort : Prop :=
  ∀ (s : State) (xs ys zs : List Command),
    (∀ c ∈ xs ++ ys, ∀ r, decode c.cmd ≠ .ok (.cfg r)) → Interleaves xs ys zs →
      (responsesTo zs s).length = zs.length ∧
      Interleaves (xs.zip (responsesTo xs s)) (ys.zip (responsesTo ys s)) (zs.zip (responsesTo zs s))

/-! ## Positions and covered sets (spec/40_position_utilities.md) -/

/-- The parity positions are the `2^j` with `j < r`, "exactly the positions `x` in `[1, n]` with `IsPow2(x)`" (R102), and there
are `r` of them. -/
def Obligations.ParityPositionsAreThePowersOfTwo : Prop :=
  ∀ r : Nat,
    (parityPositions r).length = r ∧ (parityPositions r).Nodup ∧
    (∀ x, x ∈ parityPositions r ↔ ∃ j, j < r ∧ x = 2 ^ j) ∧
    (∀ x, x ∈ parityPositions r ↔ (1 ≤ x ∧ x ≤ 2 ^ r - 1) ∧ isPowerOfTwo x = true)

/-- The data positions are the other positions in ascending order, `k = n - r` of them (R103). -/
def Obligations.DataPositionsAscend : Prop :=
  (∀ r : Nat,
    (dataPositions r).Pairwise (· < ·) ∧
    (∀ x, x ∈ dataPositions r ↔ (1 ≤ x ∧ x ≤ 2 ^ r - 1) ∧ isPowerOfTwo x = false) ∧
    (dataPositions r).length = 2 ^ r - 1 - r) ∧
  dataPositions 1 = [] ∧ dataPositions 2 = [3] ∧ dataPositions 3 = [3, 5, 6, 7] ∧
  dataPositions 4 = [3, 5, 6, 7, 9, 10, 11, 12, 13, 14, 15]

/-- `Covers(p, n)` (R101): its members; `p` itself when it lies in range; empty at `p = 0` and at
`n = 0`; the union over the bits of `p`. -/
def Obligations.CoveredSetMembers : Prop :=
  ∀ p n : Nat,
    (∀ x, x ∈ coveredSet p n ↔ (1 ≤ x ∧ x ≤ n) ∧ x &&& p ≠ 0) ∧
    (1 ≤ p → p ≤ n → p ∈ coveredSet p n) ∧
    coveredSet 0 n = [] ∧ coveredSet p 0 = [] ∧
    (∀ x, x ∈ coveredSet p n ↔ ∃ j, p.testBit j = true ∧ x ∈ coveredSet (2 ^ j) n)

/-- The coverage invariant (R104, R105): a parity position covers itself alone among the parity
positions and beside itself data positions only, `2^j` covers `x` exactly when `x[j] = 1`, and the bitwise OR of the parity positions that
cover `x` is `x`. -/
def Obligations.CoverageInvariant : Prop :=
  ∀ r : Nat,
    (∀ j k, j < r → k < r → (2 ^ k ∈ coveredSet (2 ^ j) (2 ^ r - 1) ↔ k = j)) ∧
    (∀ j x, j < r → x ∈ coveredSet (2 ^ j) (2 ^ r - 1) → x ≠ 2 ^ j → x ∈ dataPositions r) ∧
    (∀ x, 1 ≤ x → x ≤ 2 ^ r - 1 →
      (∀ j, j < r → (x ∈ coveredSet (2 ^ j) (2 ^ r - 1) ↔ x.testBit j = true)) ∧
      ((parityPositions r).filter (fun p => (coveredSet p (2 ^ r - 1)).contains x)).foldl
        (· ||| ·) 0 = x)

/-- The coverage masks of R106, all twenty-one. -/
def Obligations.CoverageMasks : Prop :=
  (List.range 1).map (fun j => maskOf (coveredSet (2 ^ j) 1)) = [0x1] ∧
  (List.range 2).map (fun j => maskOf (coveredSet (2 ^ j) 3)) = [0x5, 0x6] ∧
  (List.range 3).map (fun j => maskOf (coveredSet (2 ^ j) 7)) = [0x55, 0x66, 0x78] ∧
  (List.range 4).map (fun j => maskOf (coveredSet (2 ^ j) 15)) = [0x5555, 0x6666, 0x7878, 0x7F80] ∧
  (List.range 5).map (fun j => maskOf (coveredSet (2 ^ j) 31)) =
    [0x55555555, 0x66666666, 0x78787878, 0x7F807F80, 0x7FFF8000] ∧
  (List.range 6).map (fun j => maskOf (coveredSet (2 ^ j) 63)) =
    [0x5555555555555555, 0x6666666666666666, 0x7878787878787878, 0x7F807F807F807F80,
      0x7FFF80007FFF8000, 0x7FFFFFFF80000000]

/-! ## The codec's functions (spec/41_general_codec.md) -/

/-- `HammingEncode` (R122): data bit `i` stands at `dp_i`, each parity position is the XOR of the rest
of its covered set, which is the XOR of the data bits `i` with `dp_i[j] = 1`, and no bit stands above
`n`. -/
def Obligations.EncoderPlacesDataAndParity : Prop :=
  ∀ (r : Nat) (d : Bus), 1 ≤ r → r ≤ 6 →
    (∀ i p, (dataPositions r)[i]? = some p → bitAt (hammingEncode r d) p = d.getLsbD i) ∧
    (∀ j, j < r →
      bitAt (hammingEncode r d) (2 ^ j) =
        xorOver ((coveredSet (2 ^ j) (2 ^ r - 1)).filter (· != 2 ^ j)) (bitAt (hammingEncode r d)) ∧
      bitAt (hammingEncode r d) (2 ^ j) =
        xorOver ((List.range (2 ^ r - 1 - r)).filter
          (fun i => ((dataPositions r).getD i 0).testBit j)) d.getLsbD) ∧
    (∀ b, 2 ^ r - 1 ≤ b → (hammingEncode r d).getLsbD b = false)

/-- `Syndrome` (R123): bit `j` is the XOR over the full covered set of `2^j`, which is the parity of
the received word under that set's mask. -/
def Obligations.SyndromeBitsAreCoveredParities : Prop :=
  ∀ (r : Nat) (c : Bus), 1 ≤ r → r ≤ 6 → ∀ j, j < r →
    (syndrome r c).testBit j = xorOver (coveredSet (2 ^ j) (2 ^ r - 1)) (bitAt c) ∧
    (syndrome r c).testBit j = parity (c &&& maskOf (coveredSet (2 ^ j) (2 ^ r - 1)))

/-- The syndrome is the XOR of the positions of the one bits, is linear, and is at most `n` (R124). -/
def Obligations.SyndromeIsXorOfPositions : Prop :=
  ∀ (r : Nat) (c e : Bus),
    syndrome r c = ((positions (2 ^ r - 1)).filter (bitAt c)).foldl (· ^^^ ·) 0 ∧
    syndrome r (c ^^^ e) = syndrome r c ^^^ syndrome r e ∧
    syndrome r c ≤ 2 ^ r - 1

/-- `HammingDecode` and `Extract` (R125, R126): syndrome 0 gives the data bits as they stand, any other
the data bits of the word flipped at the syndrome; a flip of a parity position leaves the data bits. -/
def Obligations.DecoderCorrectsThenExtracts : Prop :=
  ∀ (r : Nat) (c : Bus), 1 ≤ r → r ≤ 6 →
    (syndrome r c = 0 → hammingDecode r c = .noError (extract r c)) ∧
    (syndrome r c ≠ 0 →
      hammingDecode r c = .corrected (extract r (flipAt c (syndrome r c))) (syndrome r c)) ∧
    (∀ i p, (dataPositions r)[i]? = some p → (extract r c).getLsbD i = bitAt c p) ∧
    (∀ b, 2 ^ r - 1 - r ≤ b → (extract r c).getLsbD b = false) ∧
    (∀ p ∈ parityPositions r, extract r (flipAt c p) = extract r c)

/-- "Codewords have syndrome 0" (R131). -/
def Obligations.CodewordsHaveSyndromeZero : Prop :=
  ∀ (r : Nat) (d : Bus), 1 ≤ r → r ≤ 6 → syndrome r (hammingEncode r d) = 0

/-- Round trip (R132): as functions, and on the core: `DEC.G` of the `DOUT` of `ENC.G` responds `OK`
with the data and syndrome 0. -/
def Obligations.RoundTrip : Prop :=
  (∀ (r : Nat) (d : Bus), 1 ≤ r → r ≤ 6 →
    hammingDecode r (hammingEncode r d) = .noError (lowBits (2 ^ r - 1 - r) d)) ∧
  (∀ s : State, s.LegalConfig → s.cfgValid = true →
    let n := 2 ^ s.cfgR.toNat - 1
    let k := n - s.cfgR.toNat
    ∃ cw : Bus,
      exec (.encG k) s = .next { s with response := some ⟨.ok, cw, 0⟩ } ∧
      ∀ u : State, u.cfgValid = true → u.cfgR = s.cfgR → u.din = cw →
        exec (.decG n) u = .next { u with response := some ⟨.ok, lowBits k s.din, 0⟩ })

/-- Single-bit correction (R133): a codeword with position `p` flipped decodes to the data and
`CORRECTED` at `p`, as functions and on the core. -/
def Obligations.SingleErrorIsCorrected : Prop :=
  (∀ (r : Nat) (d : Bus) (p : Nat), 1 ≤ r → r ≤ 6 → 1 ≤ p → p ≤ 2 ^ r - 1 →
    hammingDecode r (flipAt (hammingEncode r d) p) = .corrected (lowBits (2 ^ r - 1 - r) d) p) ∧
  (∀ s : State, s.LegalConfig → s.cfgValid = true →
    let n := 2 ^ s.cfgR.toNat - 1
    let k := n - s.cfgR.toNat
    ∃ cw : Bus,
      exec (.encG k) s = .next { s with response := some ⟨.ok, cw, 0⟩ } ∧
      ∀ (u : State) (p : Nat), u.cfgValid = true → u.cfgR = s.cfgR → 1 ≤ p → p ≤ n →
        u.din = flipAt cw p →
          exec (.decG n) u = .next { u with
            response := some ⟨.corrected, lowBits k s.din, BitVec.ofNat 7 p⟩ })

/-- The fixed codecs correct every single flip of their codewords, in every state (R133, R150). -/
def Obligations.FixedCodecsCorrectSingleErrors : Prop :=
  ∀ s : State,
    (∃ cw : Bus, exec (.enc74 4) s = .next { s with response := some ⟨.ok, cw, 0⟩ } ∧
      ∀ (u : State) (p : Nat), 1 ≤ p → p ≤ 7 → u.din = flipAt cw p →
        exec (.dec74 7) u = .next { u with
          response := some ⟨.corrected, lowBits 4 s.din, BitVec.ofNat 7 p⟩ }) ∧
    (∃ cw : Bus, exec (.enc1511 11) s = .next { s with response := some ⟨.ok, cw, 0⟩ } ∧
      ∀ (u : State) (p : Nat), 1 ≤ p → p ≤ 15 → u.din = flipAt cw p →
        exec (.dec1511 15) u = .next { u with
          response := some ⟨.corrected, lowBits 11 s.din, BitVec.ofNat 7 p⟩ })

/-- Double errors are not detected (R130): two flips at `x` and `y` give syndrome `x ^ y`, a third
position of `[1, n]`, which the decoder flips and reports as `CORRECTED`. -/
def Obligations.DoubleErrorsAreMiscorrected : Prop :=
  ∀ (r : Nat) (d : Bus) (x y : Nat), 1 ≤ r → r ≤ 6 →
    1 ≤ x → x ≤ 2 ^ r - 1 → 1 ≤ y → y ≤ 2 ^ r - 1 → x ≠ y →
      (1 ≤ x ^^^ y ∧ x ^^^ y ≤ 2 ^ r - 1 ∧ x ^^^ y ≠ x ∧ x ^^^ y ≠ y) ∧
      hammingDecode r (flipAt (flipAt (hammingEncode r d) x) y) =
        .corrected (extract r (flipAt (flipAt (flipAt (hammingEncode r d) x) y) (x ^^^ y)))
          (x ^^^ y)

/-! ## The host's byte driver (spec/20_memory.md R55 to R63) and assembler (R78 to R80) -/

/-- Bytes and bit streams, most significant bit first (R56, R57). -/
def Obligations.BytesAndBitStreams : Prop :=
  (∀ B : List Byte,
    (bitsOfBytes B).length = 8 * B.length ∧
    (∀ j b t, B[j]? = some b → t < 8 → (bitsOfBytes B)[8 * j + t]? = some (b.getLsbD (7 - t))) ∧
    bytesOfBits (bitsOfBytes B) = B) ∧
  (∀ s : List Bool,
    (bytesOfBits s).length = (s.length + 7) / 8 ∧
    ∀ j b t, (bytesOfBits s)[j]? = some b → t < 8 → b.getLsbD (7 - t) = s.getD (8 * j + t) false)

/-- `encode_bytes` (R58): the padding count, `ceil(L / k)` chunks zero-padded, codewords in chunk order
packed without alignment, the bits after the last codeword 0.
That the commands enter at the head of the port, whatever is pending, is the model's choice (log 18),
and so is that no reset overtakes one of them (log 20). -/
def Obligations.EncodeBytesResult : Prop :=
  ∀ (c : Codec) (s : State) (input : List Byte), c.Ready s → 1 ≤ c.k →
    let stream := bitsOfBytes input
    let L := 8 * input.length
    let C := (L + c.k - 1) / c.k
    ∃ e t, encodeBytes c input s = .ok (e, t) ∧
      e.pad = (c.k - L % c.k) % c.k ∧
      e.bytes.length = (C * c.n + 7) / 8 ∧
      (∀ i p, i < C → 1 ≤ p → p ≤ c.n →
        (bitsOfBytes e.bytes).getD (i * c.n + (p - 1)) false =
          bitAt (hammingEncode c.r
            (busOf ((List.range c.k).map (fun q => stream.getD (i * c.k + q) false)))) p) ∧
      (∀ b, C * c.n ≤ b → (bitsOfBytes e.bytes).getD b false = false)

/-- `decode_bytes` (R59, R60): `floor(E / n)` codewords decoded in order, trailing bits ignored, the
data truncated to the given length, `InvalidInput` for a length above the data, and the pair
`(c, SYN)` for each corrected codeword.
That the commands enter at the head of the port, whatever is pending, is the model's choice (log 18),
and so is that no reset overtakes one of them (log 20). -/
def Obligations.DecodeBytesResult : Prop :=
  ∀ (c : Codec) (s : State) (input : List Byte), c.Ready s → 1 ≤ c.k →
    let stream := bitsOfBytes input
    let word := fun i => busOf ((List.range c.n).map (fun q => stream.getD (i * c.n + q) false))
    let fixed := fun i =>
      if syndrome c.r (word i) = 0 then word i else flipAt (word i) (syndrome c.r (word i))
    let M := 8 * input.length / c.n
    let data := (List.range M).flatMap (fun i => bitsOf c.k (extract c.r (fixed i)))
    let corrections := (List.range M).filterMap
      (fun i => if syndrome c.r (word i) = 0 then none else some (i, syndrome c.r (word i)))
    (∃ t, decodeBytes c input none s = .ok (⟨bytesOfBits data, corrections⟩, t)) ∧
    (∀ l, l ≤ M * c.k → ∃ t,
      decodeBytes c input (some l) s = .ok (⟨bytesOfBits (data.take l), corrections⟩, t)) ∧
    (∀ l, M * c.k < l → decodeBytes c input (some l) s = .error .invalidInput)

/-- Buffer round trip (R63), for byte sequences of every length: "`decode_bytes(encode_bytes(bytes,
C), C, original_bit_length = 8 * len(bytes))` returns `bytes` and an empty list of corrections".
That the commands enter at the head of the port, whatever is pending, is the model's choice (log 18),
and so is that no reset overtakes one of them (log 20). -/
def Obligations.BufferRoundTrip : Prop :=
  ∀ (c : Codec) (s : State) (bytes : List Byte), c.Ready s → 1 ≤ c.k →
    ∃ e t u, encodeBytes c bytes s = .ok (e, t) ∧
      decodeBytes c e.bytes (some (8 * bytes.length)) t = .ok (⟨bytes, []⟩, u)

/-- One flipped bit `b` among the codewords of an encoded buffer is repaired and reported as codeword
`b / n`, position `b % n + 1` (R58 to R60, R133).
That the commands enter at the head of the port, whatever is pending, is the model's choice (log 18),
and so is that no reset overtakes one of them (log 20). -/
def Obligations.BufferSingleFlipIsCorrected : Prop :=
  ∀ (c : Codec) (s : State) (bytes flipped : List Byte) (b : Nat), c.Ready s → 1 ≤ c.k →
    b < (8 * bytes.length + c.k - 1) / c.k * c.n →
    ∃ e t, encodeBytes c bytes s = .ok (e, t) ∧
      (flipped.length = e.bytes.length →
        (∀ j, (bitsOfBytes flipped).getD j false =
          ((bitsOfBytes e.bytes).getD j false ^^ decide (j = b))) →
        ∃ u, decodeBytes c flipped (some (8 * bytes.length)) t =
          .ok (⟨bytes, [(b / c.n, b % c.n + 1)]⟩, u))

/-- "`decode_bytes` applied to an output of `encode_bytes` with the same codec decodes exactly the
codewords `encode_bytes` produced" (R61): its `DEC.*` commands carry, in order, the codewords of the
chunks that the `ENC.*` commands carry, and there is none beside them.
That the commands enter at the head of the port, whatever is pending, is the model's choice (log 18),
and so are that no reset overtakes one of them (log 20) and that `DIN` is 0 above the block (log 21),
without which the commands agree on the block's bits only. -/
def Obligations.NoPhantomCodeword : Prop :=
  ∀ (c : Codec) (s : State) (bytes : List Byte), c.Ready s → 1 ≤ c.k →
    ∃ e t, encodeBytes c bytes s = .ok (e, t) ∧
      decodeCommands c e.bytes = (encodeCommands c bytes).map
        (fun chunk => ⟨encode c.decodeInstr, hammingEncode c.r chunk.din⟩)

/-- "The driver may issue the commands of different blocks in any order or from several host agents",
with other hosts' presentations served between them, as long as the configuration stays the same: the
output is the one of chunk order or codeword order "regardless of issue order" (R50, R62).
That no reset overtakes one of the driver's own commands is the model's choice (log 20). -/
def Obligations.BlocksMayBeIssuedInAnyOrder : Prop :=
  ∀ (c : Codec) (s : State) (input : List Byte) (plan : List Slot), c.Ready s → c.Undisturbed s →
    1 ≤ c.k →
    (IssuesEachBlockOnce plan (encodeCommands c input).length →
      ∃ e t u, encodeBytes c input s = .ok (e, t) ∧ encodeBytesInPlan plan c input s = .ok (e, u)) ∧
    (IssuesEachBlockOnce plan (decodeCommands c input).length →
      ∀ l : Option Nat,
        (∃ d t u, decodeBytes c input l s = .ok (d, t) ∧ decodeBytesInPlan plan c input l s = .ok (d, u)) ∨
        (decodeBytes c input l s = .error .invalidInput ∧
          decodeBytesInPlan plan c input l s = .error .invalidInput))

/-- "A codec with `k = 0` ... is refused by the driver with `InvalidInput` before any command is
issued" (R55); the general codec at `r = 1` is one. -/
def Obligations.DriverRefusesEmptyBlocks : Prop :=
  (Codec.general 1).k = 0 ∧
  ∀ (c : Codec) (s : State) (input : List Byte) (l : Option Nat), c.k = 0 →
    encodeBytes c input s = .error .invalidInput ∧ decodeBytes c input l s = .error .invalidInput

/-- Assembling (R78 to R80): operands that fit give the command that decodes back to the line's
instruction, "An operand that does not fit its 7-bit field is an assembly error", and the short forms
supply their block length. -/
def Obligations.AssembledLinesDecode : Prop :=
  (∀ (i : Instr) (din : Nat), i.wf = true → din < 2 ^ 64 →
    ∃ c, assemble (.core i din) = some c ∧ decode c.cmd = .ok i ∧ c.din.toNat = din) ∧
  (∀ (i : Instr) (din : Nat), i.wf = false → assemble (.core i din) = none) ∧
  (∀ din : Nat,
    assemble (.shortEnc74 din) = assemble (.core (.enc74 4) din) ∧
    assemble (.shortDec74 din) = assemble (.core (.dec74 7) din) ∧
    assemble (.shortEnc1511 din) = assemble (.core (.enc1511 11) din) ∧
    assemble (.shortDec1511 din) = assemble (.core (.dec1511 15) din))
end

