-- ==== Sys2Proof/Laws/Driver.lean ====
section
/-! SUPPORT. What the driver's issuing operations answer when they answer. -/

namespace Sys2Proof.Machine

/-- A step of the core as the driver sees it. -/
theorem stepOn_ok {s t : State} : stepOn s = .ok t ↔ step s = .next t := by
  unfold stepOn
  cases step s <;> simp

/-- `issue` answers exactly the response of the step that serves its command, unless that is an error
status. -/
theorem issue_ok {c : Command} {s t : State} {r : Response} :
    issue c s = .ok (r, t) ↔
      step (presentFirst c s) = .next t ∧ t.response = some r ∧ r.status.isError = false := by
  constructor
  · intro h
    unfold issue at h
    split at h
    · rename_i u hs
      split at h
      · rename_i x hr
        split at h
        · cases h
        · rename_i he; cases h; exact ⟨hs, hr, by simpa using he⟩
      · cases h
    · cases h
    · cases h
  · rintro ⟨hs, hr, he⟩
    simp [issue, hs, hr, he]

/-- A presentation of another host takes one step or two. -/
theorem letPass_ok {s u : State} (h : letPass s = .ok u) :
    step s = .next u ∨ ∃ t, step s = .next t ∧ step t = .next u := by
  unfold letPass at h
  cases hs : stepOn s with
  | error e => rw [hs] at h; cases h
  | ok t =>
    have hs' := stepOn_ok.mp hs
    rw [hs] at h
    replace h : (if t.pending.length < s.pending.length then pure t else stepOn t) = Except.ok u := h
    split at h
    · cases h; exact .inl hs'
    · exact .inr ⟨t, hs', stepOn_ok.mp h⟩

@[simp] theorem letPassMany_zero (s : State) : letPassMany 0 s = .ok s := rfl

/-- A block's response found in block order is one the plan collected for that block. -/
theorem responseOfBlock_ok {rs : List (Nat × Response)} {i : Nat} {r : Response}
    (h : responseOfBlock rs i = .ok r) : (i, r) ∈ rs := by
  unfold responseOfBlock at h
  split at h
  · rename_i x hx
    cases h
    have hi : x.1 = i := by simpa using List.find?_some hx
    subst hi
    exact List.mem_of_find?_eq_some hx
  · cases h

/-- Responses in block order are one for each block (R62). -/
theorem inBlockOrder_length {rs : List (Nat × Response)} {count : Nat} {out : List Response}
    (h : inBlockOrder rs count = .ok out) : out.length = count := by
  induction count generalizing out with
  | zero => cases h; rfl
  | succ n ih =>
    unfold inBlockOrder at h
    cases hb : inBlockOrder rs n with
    | error e => rw [hb] at h; cases h
    | ok before =>
      cases hr : responseOfBlock rs n with
      | error e => rw [hb, hr] at h; cases h
      | ok r =>
        rw [hb, hr] at h
        cases h
        simp [ih hb]

end Sys2Proof.Machine
end

