-- ==== Sys2Proof/Laws/Operands.lean ====
section
/-! SUPPORT. What the bus, position and mask operations do, bit by bit. -/

namespace Sys2Proof.Machine

/-! ## Bits -/

@[simp] theorem getLsbD_setBit (v : Bus) (i : Nat) (b : Bool) (j : Nat) :
    (setBit v i b).getLsbD j = if j = i ∧ i < 64 then b else v.getLsbD j := by
  unfold setBit
  rcases Nat.lt_or_ge j 64 with hj | hj
  · by_cases hij : j = i
    · subst hij; cases b <;> simp [hj]
    · have : ¬ (i ≤ j ∧ j - i = 0) := by omega
      cases b <;> simp [hj, hij] <;> omega
  · have : ¬ (j = i ∧ i < 64) := by omega
    simp [this, BitVec.getLsbD_of_ge _ _ hj]

@[simp] theorem bitAt_setAt (v : Bus) (p q : Nat) (b : Bool) (hp : 1 ≤ p) (hq : 1 ≤ q) :
    bitAt (setAt v p b) q = if q = p ∧ p ≤ 64 then b else bitAt v q := by
  simp only [bitAt, setAt, getLsbD_setBit]
  have : (q - 1 = p - 1 ∧ p - 1 < 64) ↔ (q = p ∧ p ≤ 64) := by omega
  simp [this]

@[simp] theorem bitAt_flipAt (v : Bus) (p q : Nat) (hp : 1 ≤ p) (hq : 1 ≤ q) (hq' : q ≤ 64) :
    bitAt (flipAt v p) q = (bitAt v q ^^ decide (q = p)) := by
  have h1 : q - 1 < 64 := by omega
  by_cases h : q = p
  · subst h; simp [bitAt, flipAt, h1]
  · have h2 : ¬ (q - 1 - (p - 1) = 0) ∨ q - 1 < p - 1 := by omega
    rcases h2 with h2 | h2 <;> simp [bitAt, flipAt, h1, h, h2]

@[simp] theorem getLsbD_lowBits (len : Nat) (v : Bus) (i : Nat) :
    (lowBits len v).getLsbD i = (decide (i < len) && v.getLsbD i) := by
  rcases Nat.lt_or_ge i 64 with hi | hi
  · rw [lowBits, BitVec.getLsbD_ofNat, Nat.testBit_mod_two_pow]
    simp only [hi, decide_true, Bool.true_and]; rfl
  · simp [BitVec.getLsbD_of_ge _ _ hi]

theorem bus_ext {v w : Bus} (h : ∀ i, v.getLsbD i = w.getLsbD i) : v = w :=
  BitVec.eq_of_getLsbD_eq fun i _ => h i

/-! ## Positions -/

@[simp] theorem mem_positions (n x : Nat) : x ∈ positions n ↔ 1 ≤ x ∧ x ≤ n := by
  simp [positions, List.mem_range']; constructor
  · rintro ⟨i, hi, rfl⟩; omega
  · rintro ⟨h1, h2⟩; exact ⟨x - 1, by omega, by omega⟩

@[simp] theorem mem_coveredSet (p n x : Nat) :
    x ∈ coveredSet p n ↔ (1 ≤ x ∧ x ≤ n) ∧ x &&& p ≠ 0 := by
  simp [coveredSet]

@[simp] theorem mem_dataPositions (r x : Nat) :
    x ∈ dataPositions r ↔ (1 ≤ x ∧ x ≤ codeLength r) ∧ isPowerOfTwo x = false := by
  simp [dataPositions]

/-! ## GF(2) sums -/

theorem foldl_xor_init (S : List Nat) (f : Nat → Bool) (a : Bool) :
    S.foldl (fun acc x => acc ^^ f x) a = (a ^^ xorOver S f) := by
  induction S generalizing a with
  | nil => simp [xorOver]
  | cons x S ih =>
    have h : xorOver (x :: S) f = S.foldl (fun acc x => acc ^^ f x) (false ^^ f x) := rfl
    rw [List.foldl_cons, ih, h, ih, Bool.false_xor, Bool.xor_assoc]

@[simp] theorem xorOver_nil (f : Nat → Bool) : xorOver [] f = false := rfl

@[simp] theorem xorOver_cons (x : Nat) (S : List Nat) (f : Nat → Bool) :
    xorOver (x :: S) f = (f x ^^ xorOver S f) := by
  rw [xorOver, List.foldl_cons, foldl_xor_init, Bool.false_xor]

@[simp] theorem xorOver_append (S T : List Nat) (f : Nat → Bool) :
    xorOver (S ++ T) f = (xorOver S f ^^ xorOver T f) := by
  induction S with
  | nil => simp
  | cons x S ih => simp [ih]

theorem xorOver_congr {S : List Nat} {f g : Nat → Bool} (h : ∀ x ∈ S, f x = g x) :
    xorOver S f = xorOver S g := by
  induction S with
  | nil => rfl
  | cons x S ih => simp_all

theorem xorOver_xor (S : List Nat) (f g : Nat → Bool) :
    xorOver S (fun x => f x ^^ g x) = (xorOver S f ^^ xorOver S g) := by
  induction S with
  | nil => rfl
  | cons x S ih =>
    simp only [xorOver_cons, ih]
    cases f x <;> cases g x <;> simp

/-! ## Folds that write bits -/

theorem getLsbD_foldl_setAt_true (S : List Nat) (m : Bus) (hS : ∀ x ∈ S, 1 ≤ x) (i : Nat) (hi : i < 64) :
    (S.foldl (fun m x => setAt m x true) m).getLsbD i = (m.getLsbD i || decide (i + 1 ∈ S)) := by
  induction S generalizing m with
  | nil => simp
  | cons x S ih =>
    have hx : 1 ≤ x := hS x (by simp)
    have hiff : (i = x - 1 ∧ x - 1 < 64) ↔ i + 1 = x := by omega
    rw [List.foldl_cons, ih _ (fun y hy => hS y (by simp [hy]))]
    simp only [setAt, getLsbD_setBit, hiff, List.mem_cons]
    by_cases h : i + 1 = x <;> simp [h]

/-- `mask(S)`: bit `i` is set iff position `i + 1` is in `S` (R11). -/
theorem getLsbD_maskOf (S : List Nat) (hS : ∀ x ∈ S, 1 ≤ x) (i : Nat) (hi : i < 64) :
    (maskOf S).getLsbD i = decide (i + 1 ∈ S) := by
  rw [maskOf, getLsbD_foldl_setAt_true S 0 hS i hi]; simp

theorem getLsbD_foldl_setBit_zipIdx (bits : List Bool) (v : Bus) (start i : Nat) (hi : i < 64) :
    ((bits.zipIdx start).foldl (fun v x => setBit v x.2 x.1) v).getLsbD i =
      if start ≤ i ∧ i < start + bits.length then bits.getD (i - start) false else v.getLsbD i := by
  induction bits generalizing v start with
  | nil => simp; omega
  | cons b bits ih =>
    rw [List.zipIdx_cons, List.foldl_cons, ih]
    by_cases h : i = start
    · subst h
      have : ¬ (i + 1 ≤ i ∧ i < i + 1 + bits.length) := by omega
      rw [if_neg this, getLsbD_setBit, if_pos ⟨rfl, hi⟩]; simp
    · by_cases h2 : start + 1 ≤ i ∧ i < start + 1 + bits.length
      · have h3 : start ≤ i ∧ i < start + (bits.length + 1) := by omega
        have h4 : i - start = (i - (start + 1)) + 1 := by omega
        rw [if_pos h2, List.length_cons, if_pos h3, h4, List.getD_cons_succ]
      · have h3 : ¬ (start ≤ i ∧ i < start + (bits.length + 1)) := by omega
        rw [if_neg h2, List.length_cons, if_neg h3, getLsbD_setBit, if_neg (fun hc => h hc.1)]

/-- Bit `i` of the bus of a sequence is its `i`-th element, 0 above it (R42, R44). -/
theorem getLsbD_busOf (bits : List Bool) (i : Nat) (hi : i < 64) :
    (busOf bits).getLsbD i = bits.getD i false := by
  unfold busOf
  rw [getLsbD_foldl_setBit_zipIdx bits 0 0 i hi]
  by_cases h : i < bits.length <;> simp [h]

@[simp] theorem bitsOf_length (len : Nat) (v : Bus) : (bitsOf len v).length = len := by simp [bitsOf]

/-! ## The lengths of the fixed codecs (R30) -/

@[simp] theorem codeLength_three : codeLength 3 = 7 := rfl
@[simp] theorem dataLength_three : dataLength 3 = 4 := rfl
@[simp] theorem codeLength_four : codeLength 4 = 15 := rfl
@[simp] theorem dataLength_four : dataLength 4 = 11 := rfl

/-- Every register value of `R_MAX` is 4, 5 or 6 (R5). -/
theorem RMax_bounds (m : RMax) : 4 ≤ m.toNat ∧ m.toNat ≤ 6 := by cases m <;> decide

end Sys2Proof.Machine
end

