-- ==== Sys2Proof/Laws/State.lean ====
section
/-! SUPPORT. One lemma per field per update of the state, so that no proof unfolds a record update. -/

namespace Sys2Proof.Machine

/-! ## respond -/

@[simp] theorem respond_rMax (st : Status) (d : Bus) (y : Syn) (s : State) : (respond st d y s).rMax = s.rMax := rfl
@[simp] theorem respond_cfgValid (st : Status) (d : Bus) (y : Syn) (s : State) : (respond st d y s).cfgValid = s.cfgValid := rfl
@[simp] theorem respond_cfgR (st : Status) (d : Bus) (y : Syn) (s : State) : (respond st d y s).cfgR = s.cfgR := rfl
@[simp] theorem respond_din (st : Status) (d : Bus) (y : Syn) (s : State) : (respond st d y s).din = s.din := rfl
@[simp] theorem respond_pending (st : Status) (d : Bus) (y : Syn) (s : State) : (respond st d y s).pending = s.pending := rfl
@[simp] theorem respond_response (st : Status) (d : Bus) (y : Syn) (s : State) : (respond st d y s).response = some ⟨st, d, y⟩ := rfl
@[simp] theorem respond_draws (st : Status) (d : Bus) (y : Syn) (s : State) : (respond st d y s).draws = s.draws := rfl

/-! ## raise -/

@[simp] theorem raise_rMax (e : Status) (s : State) : (raise e s).rMax = s.rMax := rfl
@[simp] theorem raise_cfgValid (e : Status) (s : State) : (raise e s).cfgValid = s.cfgValid := rfl
@[simp] theorem raise_cfgR (e : Status) (s : State) : (raise e s).cfgR = s.cfgR := rfl
@[simp] theorem raise_din (e : Status) (s : State) : (raise e s).din = s.din := rfl
@[simp] theorem raise_pending (e : Status) (s : State) : (raise e s).pending = s.pending := rfl
@[simp] theorem raise_response (e : Status) (s : State) : (raise e s).response = some ⟨e, 0, 0⟩ := rfl
@[simp] theorem raise_draws (e : Status) (s : State) : (raise e s).draws = s.draws := rfl

/-! ## writeConfig -/

@[simp] theorem writeConfig_rMax (r : Nat) (s : State) : (writeConfig r s).rMax = s.rMax := rfl
@[simp] theorem writeConfig_cfgValid (r : Nat) (s : State) : (writeConfig r s).cfgValid = true := rfl
@[simp] theorem writeConfig_cfgR (r : Nat) (s : State) : (writeConfig r s).cfgR = BitVec.ofNat 3 r := rfl
@[simp] theorem writeConfig_din (r : Nat) (s : State) : (writeConfig r s).din = s.din := rfl
@[simp] theorem writeConfig_pending (r : Nat) (s : State) : (writeConfig r s).pending = s.pending := rfl
@[simp] theorem writeConfig_response (r : Nat) (s : State) : (writeConfig r s).response = s.response := rfl
@[simp] theorem writeConfig_draws (r : Nat) (s : State) : (writeConfig r s).draws = s.draws := rfl

/-! ## accept -/

@[simp] theorem accept_rMax (c : Command) (rest : List HostEvent) (s : State) : (accept c rest s).rMax = s.rMax := rfl
@[simp] theorem accept_cfgValid (c : Command) (rest : List HostEvent) (s : State) : (accept c rest s).cfgValid = s.cfgValid := rfl
@[simp] theorem accept_cfgR (c : Command) (rest : List HostEvent) (s : State) : (accept c rest s).cfgR = s.cfgR := rfl
@[simp] theorem accept_din (c : Command) (rest : List HostEvent) (s : State) : (accept c rest s).din = c.din := rfl
@[simp] theorem accept_pending (c : Command) (rest : List HostEvent) (s : State) : (accept c rest s).pending = rest := rfl
@[simp] theorem accept_response (c : Command) (rest : List HostEvent) (s : State) : (accept c rest s).response = none := rfl
@[simp] theorem accept_draws (c : Command) (rest : List HostEvent) (s : State) : (accept c rest s).draws = s.draws + 1 := rfl

/-! ## discard -/

@[simp] theorem discard_rMax (s : State) : (discard s).rMax = s.rMax := rfl
@[simp] theorem discard_cfgValid (s : State) : (discard s).cfgValid = s.cfgValid := rfl
@[simp] theorem discard_cfgR (s : State) : (discard s).cfgR = s.cfgR := rfl
@[simp] theorem discard_din (s : State) : (discard s).din = s.din := rfl
@[simp] theorem discard_pending (s : State) : (discard s).pending = s.pending := rfl
@[simp] theorem discard_response (s : State) : (discard s).response = s.response := rfl
@[simp] theorem discard_draws (s : State) : (discard s).draws = s.draws + 1 := rfl

/-! ## takeReset -/

@[simp] theorem takeReset_rMax (rest : List HostEvent) (s : State) : (takeReset rest s).rMax = s.rMax := rfl
@[simp] theorem takeReset_cfgValid (rest : List HostEvent) (s : State) : (takeReset rest s).cfgValid = false := rfl
@[simp] theorem takeReset_cfgR (rest : List HostEvent) (s : State) : (takeReset rest s).cfgR = Config.freeCfgR s.draws := rfl
@[simp] theorem takeReset_din (rest : List HostEvent) (s : State) : (takeReset rest s).din = s.din := rfl
@[simp] theorem takeReset_pending (rest : List HostEvent) (s : State) : (takeReset rest s).pending = rest := rfl
@[simp] theorem takeReset_response (rest : List HostEvent) (s : State) : (takeReset rest s).response = none := rfl
@[simp] theorem takeReset_draws (rest : List HostEvent) (s : State) : (takeReset rest s).draws = s.draws := rfl

/-! ## idle -/

@[simp] theorem idle_rMax (s : State) : (idle s).rMax = s.rMax := rfl
@[simp] theorem idle_cfgValid (s : State) : (idle s).cfgValid = s.cfgValid := rfl
@[simp] theorem idle_cfgR (s : State) : (idle s).cfgR = s.cfgR := rfl
@[simp] theorem idle_din (s : State) : (idle s).din = s.din := rfl
@[simp] theorem idle_pending (s : State) : (idle s).pending = s.pending := rfl
@[simp] theorem idle_response (s : State) : (idle s).response = none := rfl
@[simp] theorem idle_draws (s : State) : (idle s).draws = s.draws := rfl

/-! ## present -/

@[simp] theorem present_rMax (es : List HostEvent) (s : State) : (present es s).rMax = s.rMax := rfl
@[simp] theorem present_cfgValid (es : List HostEvent) (s : State) : (present es s).cfgValid = s.cfgValid := rfl
@[simp] theorem present_cfgR (es : List HostEvent) (s : State) : (present es s).cfgR = s.cfgR := rfl
@[simp] theorem present_din (es : List HostEvent) (s : State) : (present es s).din = s.din := rfl
@[simp] theorem present_pending (es : List HostEvent) (s : State) : (present es s).pending = s.pending ++ es := rfl
@[simp] theorem present_response (es : List HostEvent) (s : State) : (present es s).response = s.response := rfl
@[simp] theorem present_draws (es : List HostEvent) (s : State) : (present es s).draws = s.draws := rfl

/-! ## presentFirst -/

@[simp] theorem presentFirst_rMax (c : Command) (s : State) : (presentFirst c s).rMax = s.rMax := rfl
@[simp] theorem presentFirst_cfgValid (c : Command) (s : State) : (presentFirst c s).cfgValid = s.cfgValid := rfl
@[simp] theorem presentFirst_cfgR (c : Command) (s : State) : (presentFirst c s).cfgR = s.cfgR := rfl
@[simp] theorem presentFirst_din (c : Command) (s : State) : (presentFirst c s).din = s.din := rfl
@[simp] theorem presentFirst_pending (c : Command) (s : State) : (presentFirst c s).pending = .command c :: s.pending := rfl
@[simp] theorem presentFirst_response (c : Command) (s : State) : (presentFirst c s).response = s.response := rfl
@[simp] theorem presentFirst_draws (c : Command) (s : State) : (presentFirst c s).draws = s.draws := rfl

/-! ## State.reset (R31) -/

@[simp] theorem reset_cfgValid : State.reset.cfgValid = false := rfl
@[simp] theorem reset_pending : State.reset.pending = [] := rfl
@[simp] theorem reset_response : State.reset.response = none := rfl
@[simp] theorem reset_rMax : State.reset.rMax = .six := rfl

/-! ## The field that names the state -/

/-- A state is its seven fields. -/
theorem State.ext_fields {s t : State} (hMax : s.rMax = t.rMax) (hValid : s.cfgValid = t.cfgValid)
    (hR : s.cfgR = t.cfgR) (hDin : s.din = t.din) (hPending : s.pending = t.pending)
    (hResponse : s.response = t.response) (hDraws : s.draws = t.draws) : s = t := by
  cases s; cases t; simp_all

end Sys2Proof.Machine
end

