-- ==== Sys2Proof/Laws/Ops.lean ====
section
/-! SUPPORT. What each shared operation of the meanings can answer. -/

namespace Sys2Proof.Machine

/-- The response and nothing else. -/
theorem respond_eq (st : Status) (d : Bus) (y : Syn) (s : State) :
    respond st d y s = { s with response := some ⟨st, d, y⟩ } := rfl

/-! ## The syndrome never leaves `[0, n]` (R124) -/

theorem testBit_foldl_or (r : Nat) (fails : Nat → Bool) (a j : Nat) :
    ((List.range r).foldl (fun s j => if fails j then s ||| 2 ^ j else s) a).testBit j =
      (a.testBit j || (decide (j < r) && fails j)) := by
  induction r with
  | zero => simp
  | succ r ih =>
    rw [List.range_succ, List.foldl_append, List.foldl_cons, List.foldl_nil]
    by_cases hf : fails r
    · rw [if_pos hf, Nat.testBit_or, ih, Nat.testBit_two_pow]
      by_cases h : r = j
      · subst h; simp [hf]
      · have : j < r ↔ j < r + 1 := by omega
        simp [h, this]
    · rw [if_neg hf, ih]
      by_cases h : r = j
      · subst h; simp [hf]
      · have : j < r ↔ j < r + 1 := by omega
        simp [this]

/-- "bit `j` of the syndrome is set iff that parity bit's check mismatched" (R123). -/
theorem testBit_syndrome (r : Nat) (c : Bus) (j : Nat) :
    (syndrome r c).testBit j = (decide (j < r) && checkFails r c j) := by
  simp [syndrome, testBit_foldl_or r (checkFails r c) 0 j]

theorem syndrome_lt (r : Nat) (c : Bus) : syndrome r c < 2 ^ r := by
  apply Nat.lt_pow_two_of_testBit
  intro j hj
  simp [testBit_syndrome, Nat.not_lt.mpr hj]

/-- "Its range is `0 <= s <= 2^r - 1 = n`" (R124). -/
theorem syndrome_le_codeLength (r : Nat) (c : Bus) : syndrome r c ≤ codeLength r := by
  have := syndrome_lt r c
  unfold codeLength; omega

/-- What `HammingDecode` returns (R126): step 5 is never reached. -/
theorem hammingDecode_eq (r : Nat) (c : Bus) :
    hammingDecode r c =
      if syndrome r c = 0 then .noError (extract r c)
      else .corrected (extract r (flipAt c (syndrome r c))) (syndrome r c) := by
  have := syndrome_le_codeLength r c
  unfold hammingDecode
  by_cases h : syndrome r c = 0
  · simp [h]
  · have h1 : 1 ≤ syndrome r c ∧ syndrome r c ≤ codeLength r := by omega
    simp [h, h1]

/-! ## The bodies of the block commands -/

/-- What a decode body answers (R129, R154, R158): a length error, or the decoded block; never a
fault. -/
theorem decodeBlock_eq (r len : Nat) (s : State) :
    decodeBlock r len s =
      if len ≠ codeLength r then .next (raise .invalidInput s)
      else
        let c := lowBits (codeLength r) s.din
        if syndrome r c = 0 then .next (respond .ok (extract r c) 0 s)
        else .next (respond .corrected (extract r (flipAt c (syndrome r c)))
          (BitVec.ofNat 7 (syndrome r c)) s) := by
  unfold decodeBlock
  split
  · rfl
  · rw [hammingDecode_eq]
    by_cases h : syndrome r (lowBits (codeLength r) s.din) = 0 <;> simp [h, answerDecoded]

/-- An encode body always answers, and changes the response only. -/
theorem encodeBlock_next (r len : Nat) (s : State) :
    ∃ rsp, encodeBlock r len s = .next { s with response := some rsp } := by
  unfold encodeBlock
  split <;> exact ⟨_, rfl⟩

/-- A decode body always answers, and changes the response only. -/
theorem decodeBlock_next (r len : Nat) (s : State) :
    ∃ rsp, decodeBlock r len s = .next { s with response := some rsp } := by
  rw [decodeBlock_eq]
  split
  · exact ⟨_, rfl⟩
  · dsimp only; split <;> exact ⟨_, rfl⟩

/-- The general codec's commands: `NOT_CONFIGURED`, or the body at `CFG_R` (R128, R129, R176). -/
theorem withGeneralCodec_cases (s : State) (run : Nat → Host.Outcome State Fault Refusal) :
    (s.cfgValid = false ∧ withGeneralCodec s run = .next (raise .notConfigured s)) ∨
    (s.cfgValid = true ∧ withGeneralCodec s run = run s.cfgR.toNat) := by
  unfold withGeneralCodec
  cases h : s.cfgValid <;> simp

/-- Everything a command can do: it answers, changing the response only, or it is a `CFG` that
succeeds (R32, R47, R197). -/
theorem exec_cases (i : Instr) (s : State) :
    (∃ rsp, exec i s = .next { s with response := some rsp }) ∨
    (∃ r, i = .cfg r ∧ 1 ≤ r ∧ r ≤ s.rMax.toNat ∧
      exec i s = .next (respond .ok (configReply r) 0 (writeConfig r s))) := by
  have general : ∀ run : Nat → Host.Outcome State Fault Refusal,
      (∀ r, ∃ rsp, run r = .next { s with response := some rsp }) →
      ∃ rsp, withGeneralCodec s run = .next { s with response := some rsp } := by
    intro run h
    rcases withGeneralCodec_cases s run with ⟨-, he⟩ | ⟨-, he⟩
    · exact ⟨_, he⟩
    · rw [he]; exact h _
  cases i with
  | cfg r =>
    by_cases h : r = 0 ∨ r > s.rMax.toNat
    · exact .inl ⟨_, by simp only [exec, execCfg, if_pos h]; rfl⟩
    · exact .inr ⟨r, rfl, by omega, by omega, by simp only [exec, execCfg, if_neg h]⟩
  | encG len => exact .inl (general _ fun r => encodeBlock_next r len s)
  | decG len => exact .inl (general _ fun r => decodeBlock_next r len s)
  | enc74 len => exact .inl (encodeBlock_next _ len s)
  | dec74 len => exact .inl (decodeBlock_next _ len s)
  | enc1511 len => exact .inl (encodeBlock_next _ len s)
  | dec1511 len => exact .inl (decodeBlock_next _ len s)
  | isPow2 pos => exact .inl ⟨_, rfl⟩
  | covers p n =>
    by_cases h : n > 64
    · exact .inl ⟨_, by simp only [exec, execCovers, if_pos h]; rfl⟩
    · exact .inl ⟨_, by simp only [exec, execCovers, if_neg h]; rfl⟩

/-! ## Serving the port -/

theorem step_of_idle {s : State} (h : s.pending = []) : step s = .next (idle s) := by
  simp [step, serveOldest, h]

theorem step_of_command {s : State} {c : Command} {rest : List HostEvent}
    (h : s.pending = .command c :: rest) : step s = runWord c.cmd (accept c rest s) := by
  simp [step, serveOldest, h, serve]

theorem step_of_reset {s : State} {rest : List HostEvent} (h : s.pending = .reset :: rest) :
    step s = .next (takeReset rest s) := by
  simp [step, serveOldest, h]

/-- The two runs R191 admits. -/
theorem step_of_commandThenReset {s : State} {c : Command} {rest : List HostEvent}
    (h : s.pending = .commandThenReset c :: rest) :
    step s = runWord c.cmd (accept c (.reset :: rest) s) ∨
      step s = .next (takeReset rest (discard s)) := by
  cases hb : Config.freeCompletes s.draws <;> simp [step, serveOldest, h, serve, hb]

theorem runWord_of_ok {w : Word} {i : Instr} (h : decode w = .ok i) (s : State) :
    runWord w s = exec i s := by
  simp [runWord, h]

theorem runWord_of_error {w : Word} {e : Illegal} (h : decode w = .error e) (s : State) :
    runWord w s = .next (raise .illegalCommand s) := by
  simp [runWord, h]

end Sys2Proof.Machine
end

