-- ==== Sys2Proof/Laws/PerInstr.lean ====
section
/-! SUPPORT. Statements about each command as syntax. -/

namespace Sys2Proof.Laws.EncodeLeavesRsvZero

/-- `RSV = CMD[31:25]` is 0 in the word of every well-formed command (R70, R73, R80). -/
def Statement (i : Instr) : Prop := i.wf = true → (encode i).toNat < 2 ^ 25

theorem commandWord_lt (op len a b : Nat) (ho : op < 16) (hl : len < 128) (ha : a < 128)
    (hb : b < 128) : (commandWord op len a b).toNat < 2 ^ 25 := by
  have h1 : op < 2 ^ 25 := by omega
  have h2 : len <<< 4 < 2 ^ 25 := by rw [Nat.shiftLeft_eq]; omega
  have h3 : a <<< 11 < 2 ^ 25 := by rw [Nat.shiftLeft_eq]; omega
  have h4 : b <<< 18 < 2 ^ 25 := by rw [Nat.shiftLeft_eq]; omega
  have h := Nat.or_lt_two_pow (Nat.or_lt_two_pow (Nat.or_lt_two_pow h1 h2) h3) h4
  unfold commandWord
  rw [BitVec.toNat_ofNat]
  exact Nat.lt_of_le_of_lt (Nat.mod_le _ _) h

theorem cfg (r : Nat) : Statement (.cfg r) := fun h =>
  commandWord_lt 1 0 r 0 (by decide) (by decide) (by simpa [Instr.wf, fitsField] using h) (by decide)

theorem encG (len : Nat) : Statement (.encG len) := fun h =>
  commandWord_lt 2 len 0 0 (by decide) (by simpa [Instr.wf, fitsField] using h) (by decide) (by decide)

theorem decG (len : Nat) : Statement (.decG len) := fun h =>
  commandWord_lt 3 len 0 0 (by decide) (by simpa [Instr.wf, fitsField] using h) (by decide) (by decide)

theorem enc74 (len : Nat) : Statement (.enc74 len) := fun h =>
  commandWord_lt 4 len 0 0 (by decide) (by simpa [Instr.wf, fitsField] using h) (by decide) (by decide)

theorem dec74 (len : Nat) : Statement (.dec74 len) := fun h =>
  commandWord_lt 5 len 0 0 (by decide) (by simpa [Instr.wf, fitsField] using h) (by decide) (by decide)

theorem enc1511 (len : Nat) : Statement (.enc1511 len) := fun h =>
  commandWord_lt 6 len 0 0 (by decide) (by simpa [Instr.wf, fitsField] using h) (by decide) (by decide)

theorem dec1511 (len : Nat) : Statement (.dec1511 len) := fun h =>
  commandWord_lt 7 len 0 0 (by decide) (by simpa [Instr.wf, fitsField] using h) (by decide) (by decide)

theorem isPow2 (pos : Nat) : Statement (.isPow2 pos) := fun h =>
  commandWord_lt 8 0 pos 0 (by decide) (by decide) (by simpa [Instr.wf, fitsField] using h) (by decide)

theorem covers (parityPos n : Nat) : Statement (.covers parityPos n) := fun h => by
  have h' : parityPos < 128 ∧ n < 128 := by simpa [Instr.wf, fitsField] using h
  exact commandWord_lt 9 0 parityPos n (by decide) (by decide) h'.1 h'.2

end Sys2Proof.Laws.EncodeLeavesRsvZero
end

