-- ==== Sys2Proof/Tests/Slice0.lean ====
section
/-! SUPPORT. Tests against the spec's own vectors (spec/95_test_vectors.md, spec/30_encoding.md R80),
and for every statement with hypotheses a witness that meets them. -/

namespace Sys2Proof.Tests

open Sys2Proof.Machine

/-! ## Small states -/

/-- Unconfigured, `DIN = d`. -/
def fresh (d : Bus) : State := { State.reset with din := d }

/-- Configured with `r`, `DIN = d`. -/
def configured (r : BitVec 3) (d : Bus) : State :=
  { State.reset with cfgValid := true, cfgR := r, din := d }

/-- The events presented to a state. -/
def presented (es : List HostEvent) (s : State) : State := { s with pending := es }

/-- What one command word responds. -/
def answer (w : Word) (d : Bus) (s : State) : Option Response :=
  responseOf (step (presented [.command ⟨w, d⟩] s))

/-! ## Well-formedness refuses each ill-formed operand (R71, R78) -/

theorem test_wf_cfg : (Instr.cfg 128).wf = false ∧ (Instr.cfg 127).wf = true := by decide
theorem test_wf_encG : (Instr.encG 128).wf = false ∧ (Instr.encG 127).wf = true := by decide
theorem test_wf_decG : (Instr.decG 128).wf = false ∧ (Instr.decG 127).wf = true := by decide
theorem test_wf_enc74 : (Instr.enc74 128).wf = false ∧ (Instr.enc74 127).wf = true := by decide
theorem test_wf_dec74 : (Instr.dec74 128).wf = false ∧ (Instr.dec74 127).wf = true := by decide
theorem test_wf_enc1511 : (Instr.enc1511 128).wf = false ∧ (Instr.enc1511 127).wf = true := by decide
theorem test_wf_dec1511 : (Instr.dec1511 128).wf = false ∧ (Instr.dec1511 127).wf = true := by decide
theorem test_wf_isPow2 : (Instr.isPow2 128).wf = false ∧ (Instr.isPow2 127).wf = true := by decide
theorem test_wf_covers : (Instr.covers 128 0).wf = false ∧ (Instr.covers 0 128).wf = false ∧
    (Instr.covers 127 127).wf = true := by decide

/-! ## Decoding: words written out from R70 and R72 as RSV, B, A, LEN, OP (bit 31 first) -/

theorem test_decode_cfg : decode 0b0000000_0000000_1010011_0000000_0001#32 = .ok (.cfg 83) := by rfl
theorem test_decode_encG : decode 0b0000000_0000000_0000000_1010011_0010#32 = .ok (.encG 83) := by rfl
theorem test_decode_decG : decode 0b0000000_0000000_0000000_1010011_0011#32 = .ok (.decG 83) := by rfl
theorem test_decode_enc74 : decode 0b0000000_0000000_0000000_0000100_0100#32 = .ok (.enc74 4) := by rfl
theorem test_decode_dec74 : decode 0b0000000_0000000_0000000_0000111_0101#32 = .ok (.dec74 7) := by rfl
theorem test_decode_enc1511 : decode 0b0000000_0000000_0000000_0001011_0110#32 = .ok (.enc1511 11) := by rfl
theorem test_decode_dec1511 : decode 0b0000000_0000000_0000000_0001111_0111#32 = .ok (.dec1511 15) := by rfl
theorem test_decode_isPow2 : decode 0b0000000_0000000_1010011_0000000_1000#32 = .ok (.isPow2 83) := by rfl
theorem test_decode_covers :
    decode 0b0000000_1100101_1010011_0000000_1001#32 = .ok (.covers 83 101) := by rfl

/-- The illegal words of 95_test_vectors.md 2.8. -/
theorem test_decode_illegal :
    [0x00000000, 0x0000000A, 0x0000000F, 0x02001801, 0x00001811, 0x00000844, 0x00042008, 0x001C0819,
      0x80000042].all (fun w => illegalWord w && mnemonicOf w == none) = true ∧
    decode 0x00000000 = .error .unassignedOpcode ∧ decode 0x02001801 = .error .reservedBits ∧
    decode 0x00001811 = .error .unusedField := by
  refine ⟨by decide, rfl, rfl, rfl⟩

/-- The encoded words of R80. -/
theorem test_encode_examples :
    [Instr.cfg 3, .cfg 4, .encG 4, .decG 7, .enc74 4, .dec74 7, .enc1511 11, .dec1511 15, .isPow2 8,
      .covers 4 15].map encode =
    [0x00001801, 0x00002001, 0x00000042, 0x00000073, 0x00000044, 0x00000075, 0x000000B6, 0x000000F7,
      0x00004008, 0x003C2009] := by decide

theorem test_decodeTableWord : decodeTableWord 32 0x3C2009 = some (.covers 4 15) := by decide

theorem test_withFetchWord :
    responseOf (step (State.reset.withFetchWord 32 0x00002001)) = some ⟨.ok, 0x0B0F, 0⟩ := by decide

/-! ## One step per command: the vectors of 95_test_vectors.md sections 2.1 to 2.8 -/

theorem test_isPow2_64 : answer 0x00020008 0 State.reset = some ⟨.ok, 1, 0⟩ := by decide
theorem test_isPow2_0 : answer 0x00000008 0 State.reset = some ⟨.ok, 0, 0⟩ := by decide

theorem test_covers_5_15 : answer 0x003C2809 0 State.reset = some ⟨.ok, 0x7D7D, 0⟩ := by decide
theorem test_covers_64_edge :
    answer 0x01020009 0 State.reset = some ⟨.ok, 0x8000000000000000, 0⟩ ∧
    answer 0x01040809 0 State.reset = some ⟨.invalidInput, 0, 0⟩ := by decide

theorem test_cfg_6 : answer 0x00003001 0 State.reset = some ⟨.ok, 0x393F, 0⟩ := by decide
theorem test_cfg_7_refused :
    answer 0x00003801 0 (configured 4 0) = some ⟨.invalidParameter, 0, 0⟩ := by decide

theorem test_encG_r3 : answer 0x00000042 0xD (configured 3 0) = some ⟨.ok, 0x66, 0⟩ := by decide
theorem test_encG_r6 :
    answer 0x00000392 0x123456789ABCDE (configured 6 0) = some ⟨.ok, 0x48D159E9357CDF3, 0⟩ := by
  decide +kernel

theorem test_decG_r3 : answer 0x00000073 0x62 (configured 3 0) = some ⟨.corrected, 0xD, 3⟩ := by decide
theorem test_decG_r6_double_error :
    answer 0x000003F3 0x48D159E9347CFF3 (configured 6 0) =
      some ⟨.corrected, 0x1234567A9A3CFE, 31⟩ := by decide +kernel

theorem test_enc74 : answer 0x00000044 0xB State.reset = some ⟨.ok, 0x55, 0⟩ := by decide
theorem test_dec74_high_bits : answer 0x00000075 0x1FF66 State.reset = some ⟨.ok, 0xD, 0⟩ := by decide

theorem test_enc1511 : answer 0x000000B6 0x123 State.reset = some ⟨.ok, 0x1215, 0⟩ := by decide +kernel
theorem test_dec1511 : answer 0x000000F7 0x5AA5 State.reset = some ⟨.corrected, 0x5A5, 8⟩ := by
  decide +kernel

/-- Priority (R172): the word first, then the configuration, then the length. -/
theorem test_priority :
    answer 0x80000042 0xD State.reset = some ⟨.illegalCommand, 0, 0⟩ ∧
    answer 0x00000032 0xD State.reset = some ⟨.notConfigured, 0, 0⟩ ∧
    answer 0x00000032 0xD (configured 3 0) = some ⟨.invalidInput, 0, 0⟩ := by decide

/-- The unrolled datapaths of R151 and R155 on the vectors of 2.6 and 2.7. -/
theorem test_unrolled :
    unrolledEncode74 0xD = 0x66 ∧ unrolledEncode1511 0x555 = 0x552D ∧
    unrolledSyndrome74 0x62 = 3 ∧ unrolledExtract74 (unrolledCorrect 0x62 3) = 0xD ∧
    unrolledSyndrome1511 0x5AA5 = 8 ∧ unrolledExtract1511 (unrolledCorrect 0x5AA5 8) = 0x5A5 := by
  decide +kernel

/-! ## The host's driver and assembler (95_test_vectors.md 2.9; R78, R79) -/

theorem test_driver_streams :
    bitsOfBytes [0xA5] = [true, false, true, false, false, true, false, true] ∧
    (encodeCommands .hamming1511 [0x12, 0x34]).map (·.din) = [0x448, 0x5] ∧
    padCount 11 16 = 6 ∧
    bytesOfBits (bitsOf 7 0x2D ++ bitsOf 7 0x52) = [0xB4, 0x94] := by decide

theorem test_driver_encode :
    (encodeBytes .hamming74 [0xA5] State.reset).toOption.map (·.1) = some ⟨[0xB4, 0x94], 0⟩ := by
  decide +kernel

theorem test_driver_decode_flipped :
    (decodeBytes .hamming74 [0x94, 0x94] (some 8) State.reset).toOption.map (·.1) =
      some ⟨[0xA5], [(0, 3)]⟩ := by decide +kernel

/-- The two chunks of 2.9 issued last one first, another host's reset and command served between them:
the same output bytes (R62). -/
theorem test_driver_in_plan :
    (encodeBytesInPlan [⟨1, 0⟩, ⟨0, 2⟩] .hamming1511 [0x12, 0x34]
      (presented [.reset, .command ⟨0x4008, 0⟩] State.reset)).toOption.map (·.1) =
      some ⟨[0xC2, 0x23, 0x68, 0x00], 6⟩ := by decide +kernel

/-- `covers 4, 15 ; c` and `dec.74 0x62`. -/
theorem test_assembler :
    assembleText (['c', 'o', 'v', 'e', 'r', 's', ' ', '4', ',', ' ', '1', '5', ' ', ';', ' ', 'c', '\n',
      'd', 'e', 'c', '.', '7', '4', ' ', '0', 'x', '6', '2']) =
      some [⟨0x003C2009, 0⟩, ⟨0x00000075, 0x62⟩] ∧
    assembleText ['c', 'f', 'g', ' ', '1', '2', '8'] = none := by decide +kernel

/-! ## Witnesses: every statement's hypotheses are met somewhere, clause by clause -/

theorem witness_DecodeOfEncode : (Instr.covers 127 127).wf = true ∧ (Instr.cfg 0).wf = true := by decide

theorem witness_EncodeOfDecode : decode 0x01FFF809 = .ok (.covers 127 127) := by rfl

theorem witness_MatchAndMaskSelectTheCommand :
    decode 0x000007F3 = .ok (.decG 127) ∧ mnemonicOf 0x000007F3 = some .DEC_G ∧
    mnemonicOf 0x00000803 = none := by decide

theorem witness_StepRunsTheDecodedCommand :
    (presented [.command ⟨0x42, 0xD⟩, .reset] State.reset).pending = .command ⟨0x42, 0xD⟩ :: [.reset] ∧
    decode 0x42 = .ok (.encG 4) ∧ State.reset.pending = [] := by decide

theorem witness_IllegalCommandResponds :
    (presented [.command ⟨0xA, 1⟩] (configured 6 0)).pending = .command ⟨0xA, 1⟩ :: [] ∧
    illegalWord 0xA = true ∧ illegalWord 0xF = true ∧ illegalWord 0x0 = true ∧
    illegalWord 0x02001801 = true ∧ illegalWord 0x00001811 = true := by decide

theorem witness_ResetEventClearsTheConfiguration :
    (presented [.reset, .reset] (configured 4 0)).pending = .reset :: .reset :: [] := by rfl

theorem witness_ResetOvertakesOutstandingCommand :
    (presented [.commandThenReset ⟨0x2001, 0⟩] State.reset).pending =
      .commandThenReset ⟨0x2001, 0⟩ :: [] := by rfl

theorem witness_EveryCommandCompletes :
    (presented [.command ⟨0xFFFFFFFF, 0⟩] (configured 7 0)).pending =
      .command ⟨0xFFFFFFFF, 0⟩ :: [] := by rfl

theorem witness_EveryStepKeepsTheInvariant :
    (presented [.command ⟨0x2001, 0⟩] State.reset).Inv ∧
    ∃ t, step (presented [.command ⟨0x2001, 0⟩] State.reset) = .next t ∧ t.cfgValid = true :=
  ⟨by decide, _, rfl, rfl⟩

/-- A configuring command, a command that writes nothing, and a reset. -/
theorem witness_StateChangesOnlyByCfgAndReset :
    (∃ t, step (presented [.command ⟨0x3001, 0⟩] State.reset) = .next t ∧ t.cfgR = 6) ∧
    (∃ t, step (presented [.command ⟨0x3801, 0⟩] (configured 4 0)) = .next t ∧ t.cfgR = 4) ∧
    (∃ t, step (presented [.reset] (configured 4 0)) = .next t ∧ t.cfgValid = false) :=
  ⟨⟨_, rfl, rfl⟩, ⟨_, rfl, rfl⟩, ⟨_, rfl, rfl⟩⟩

theorem witness_ErrorResponsesWriteNothing :
    ∃ t, step (presented [.command ⟨0x3801, 0⟩] (configured 4 0)) = .next t ∧
      t.response = some ⟨.invalidParameter, 0, 0⟩ ∧
      2 ≤ Status.invalidParameter.code.toNat ∧ Status.illegalCommand.code.toNat ≤ 6 :=
  ⟨_, rfl, rfl, by decide, by decide⟩

theorem witness_InvalidLengthIsNeverProduced :
    ∃ t, step (presented [.command ⟨0x8, 0⟩] State.reset) = .next t ∧ t.response = some ⟨.ok, 0, 0⟩ :=
  ⟨_, rfl, rfl⟩

/-- Each status with the command that produces it (R170). -/
theorem witness_StatusesComeFromTheirCommands :
    responseOf (exec (.dec74 7) (fresh 0x62)) = some ⟨.corrected, 0xD, 3⟩ ∧
    responseOf (exec (.cfg 0) (fresh 0)) = some ⟨.invalidParameter, 0, 0⟩ ∧
    responseOf (exec (.enc1511 4) (fresh 0)) = some ⟨.invalidInput, 0, 0⟩ ∧
    responseOf (exec (.covers 1 65) (fresh 0)) = some ⟨.invalidInput, 0, 0⟩ ∧
    responseOf (exec (.decG 7) (fresh 0)) = some ⟨.notConfigured, 0, 0⟩ := by decide

theorem witness_ExecFrame :
    (∃ t, exec (.isPow2 8) (configured 3 0) = .next t) ∧ ∀ r, Instr.isPow2 8 ≠ .cfg r :=
  ⟨⟨_, rfl⟩, by intro r; exact Instr.noConfusion⟩

/-- Both sides of `1..R_MAX`, for `R_MAX = 4` and `R_MAX = 6`. -/
theorem witness_CfgResult :
    ((0 : Nat) = 0 ∨ (fresh 0).rMax.toNat < 0) ∧ (fresh 0).rMax.toNat < 7 ∧ 6 ≤ (fresh 0).rMax.toNat ∧
    1 ≤ (fresh 0).rMax.toNat ∧ RMax.four.toNat < 5 ∧ 4 ≤ RMax.four.toNat := by decide

theorem witness_EncGResult :
    (fresh 0).cfgValid = false ∧ (configured 6 0).cfgValid = true ∧
    (57 : Nat) = 2 ^ (configured 6 0).cfgR.toNat - 1 - (configured 6 0).cfgR.toNat ∧
    (0 : Nat) = 2 ^ (configured 1 0).cfgR.toNat - 1 - (configured 1 0).cfgR.toNat ∧
    (63 : Nat) ≠ 2 ^ (configured 6 0).cfgR.toNat - 1 - (configured 6 0).cfgR.toNat := by decide

theorem witness_DecGResult :
    (fresh 0).cfgValid = false ∧ (configured 3 0x66).cfgValid = true ∧
    (7 : Nat) = 2 ^ (configured 3 0x66).cfgR.toNat - 1 ∧
    syndrome 3 (lowBits 7 (configured 3 0x66).din) = 0 ∧
    syndrome 3 (lowBits 7 (configured 3 0x62).din) ≠ 0 ∧
    (4 : Nat) ≠ 2 ^ (configured 3 0x66).cfgR.toNat - 1 := by decide

theorem witness_fixed_lengths :
    ((3 : Nat) ≠ 4 ∧ (4 : Nat) = 4) ∧ ((15 : Nat) ≠ 7 ∧ (7 : Nat) = 7) ∧ ((4 : Nat) ≠ 11 ∧ (11 : Nat) = 11) ∧
    ((7 : Nat) ≠ 15 ∧ (15 : Nat) = 15) := by decide

theorem witness_IsPow2Result : (∃ j, 64 = 2 ^ j) ∧ (∃ j, 1 = 2 ^ j) ∧ ¬ ∃ j, 0 = 2 ^ j :=
  ⟨⟨6, rfl⟩, ⟨0, rfl⟩, fun ⟨j, h⟩ => absurd h.symm (Nat.two_pow_pos j).ne'⟩

theorem witness_CoversResult : (64 : Nat) < 65 ∧ (64 : Nat) ≤ 64 := by decide

/-- `DIN` values that differ above the block only. -/
theorem witness_IgnoredDinBits :
    (0x1FF66#64 : Bus) ≠ 0x66 ∧
    ∀ j, j < inputBits (.dec74 7) (fresh 0) →
      (0x1FF66#64 : Bus).getLsbD j = (0x66#64 : Bus).getLsbD j := by decide

theorem witness_UnusedOutputBitsAreZero :
    (∃ t, exec (.enc74 4) (fresh 0xF) = .next t ∧ t.response = some ⟨.ok, 0x7F, 0⟩) ∧
    outputBits (.enc74 4) (fresh 0xF) ≤ 7 :=
  ⟨⟨_, rfl, by decide⟩, by decide⟩

theorem witness_ResponseDependsOnCommandAndConfiguration :
    (configured 3 5).rMax = (presented [.reset] (configured 3 5)).rMax ∧
    (configured 3 5).din = (presented [.reset] (configured 3 5)).din ∧
    (configured 3 5).cfgR = (presented [.reset] (configured 3 5)).cfgR ∧
    (configured 3 5).din = (fresh 5).din ∧ (configured 3 5).cfgValid ≠ (fresh 5).cfgValid ∧
    (∀ len, Instr.enc74 4 ≠ .encG len) :=
  ⟨rfl, rfl, rfl, rfl, by decide, fun _ => Instr.noConfusion⟩

theorem witness_CfgRIsUnobservableWhileInvalid :
    (presented [.command ⟨0x42, 0⟩, .command ⟨0x2001, 0⟩] State.reset).cfgValid = false := by rfl

theorem witness_NotConfiguredUntilCfgSucceeds :
    (fresh 0).cfgValid = false ∧ decode 0x3801 = .ok (.cfg 7) ∧ (fresh 0).rMax.toNat < 7 ∧
    ([⟨0x3801, 0⟩, ⟨0x42, 0xD⟩] : List Command)[1]? = some ⟨0x42, 0xD⟩ ∧
    decode 0x42 = .ok (.encG 4) := by decide

theorem witness_CfgTakesEffectForTheNextCommand : 1 ≤ 6 ∧ 6 ≤ (configured 3 0).rMax.toNat := by decide

theorem witness_WrongConfigurationIsRefused :
    (configured 6 0).cfgValid = true ∧ (configured 6 0).cfgR.toNat ≠ 3 := by decide

/-- Two hosts' commands, none of them `CFG`, and a serialization. -/
theorem witness_HostsShareThePort :
    decode 0x44 = .ok (.enc74 4) ∧ decode 0x75 = .ok (.dec74 7) ∧ decode 0x4008 = .ok (.isPow2 8) ∧
    Interleaves [(⟨0x44, 0xD⟩ : Command), ⟨0x75, 0x62⟩] [⟨0x4008, 0⟩]
      [⟨0x44, 0xD⟩, ⟨0x4008, 0⟩, ⟨0x75, 0x62⟩] :=
  ⟨rfl, rfl, rfl, .first _ (.second _ (.first _ .done))⟩

theorem witness_EachCommandAnswersAsAlone :
    ∀ c ∈ [(⟨0x44, 0xD⟩ : Command), ⟨0xFFFFFFFF, 0⟩], ∀ r, decode c.cmd ≠ .ok (.cfg r) := by
  intro c hc r h
  simp only [List.mem_cons, List.not_mem_nil, or_false] at hc
  rcases hc with rfl | rfl
  · have h' : decode 0x44 = .ok (.enc74 4) := rfl
    rw [h'] at h; cases h
  · have h' : decode 0xFFFFFFFF = .error .reservedBits := rfl
    rw [h'] at h; cases h

theorem witness_CoveredSetMembers : (1 : Nat) ≤ 5 ∧ (5 : Nat) ≤ 5 ∧ 5 ∈ coveredSet 5 5 := by decide

theorem witness_CoverageInvariant : (5 : Nat) < 6 ∧ (1 : Nat) ≤ 63 ∧ 63 ≤ 2 ^ 6 - 1 := by decide

/-- The ends of `1..6` and of `0..r-1`, used by every statement over `r`. -/
theorem witness_r_and_j_ranges : (1 : Nat) ≤ 1 ∧ (6 : Nat) ≤ 6 ∧ (5 : Nat) < 6 ∧ (0 : Nat) < 1 := by decide

theorem witness_EncoderPlacesDataAndParity :
    (dataPositions 3)[0]? = some 3 ∧ (dataPositions 3)[3]? = some 7 ∧ 2 ^ 6 - 1 ≤ 63 := by decide

theorem witness_DecoderCorrectsThenExtracts :
    syndrome 3 0x66 = 0 ∧ syndrome 3 0x62 ≠ 0 ∧ 4 ∈ parityPositions 3 ∧ 2 ^ 3 - 1 - 3 ≤ 4 := by decide

theorem witness_RoundTrip :
    (configured 6 5).LegalConfig ∧ (configured 6 5).cfgValid = true ∧ (configured 1 0).LegalConfig ∧
    (configured 6 5).cfgR = (configured 6 9).cfgR := by decide

theorem witness_SingleErrorIsCorrected :
    (1 : Nat) ≤ 1 ∧ (63 : Nat) ≤ 2 ^ 6 - 1 ∧ (configured 3 0).LegalConfig ∧
    (configured 3 0x62).din = flipAt 0x66 3 := by decide

theorem witness_FixedCodecsCorrectSingleErrors :
    (fresh 0x26).din = flipAt 0x66 7 ∧ (fresh 0x1A25).din = flipAt 0x5A25 15 := by decide

theorem witness_DoubleErrorsAreMiscorrected :
    (1 : Nat) ≤ 1 ∧ 7 ≤ 2 ^ 3 - 1 ∧ (1 : Nat) ≠ 7 := by decide

theorem witness_BytesAndBitStreams :
    ([0xA5, 0x12] : List Byte)[1]? = some 0x12 ∧ (7 : Nat) < 8 ∧
    (bytesOfBits [true, false, true])[0]? = some 0xA0 := by decide

/-- The driver's premises: Hamming74 from reset, the general codec at `r = 2` and `r = 6`. -/
theorem witness_driver_ready :
    Codec.hamming74.Ready State.reset ∧ 1 ≤ Codec.hamming74.k ∧
    (Codec.general 2).Ready (configured 2 0) ∧ 1 ≤ (Codec.general 2).k ∧
    (Codec.general 6).Ready (configured 6 0) := by
  refine ⟨fun _ h => Codec.noConfusion h, by decide, ?_, by decide, ?_⟩
  · intro r h; cases h; decide
  · intro r h; cases h; decide

theorem witness_DecodeBytesResult : 4 ≤ 8 * 1 / 7 * 4 ∧ 8 * 1 / 7 * 4 < 5 := by decide

/-- Bit 2 of the first of two codewords, and the last bit of the second, as in 2.9. -/
theorem witness_BufferSingleFlipIsCorrected :
    2 < (8 * [(0xA5 : Byte)].length + Codec.hamming74.k - 1) / Codec.hamming74.k * Codec.hamming74.n ∧
    13 < (8 * [(0xA5 : Byte)].length + Codec.hamming74.k - 1) / Codec.hamming74.k * Codec.hamming74.n ∧
    ([0x94, 0x94] : List Byte).length = ([0xB4, 0x94] : List Byte).length ∧
    (List.range 16).all (fun j => (bitsOfBytes [0x94, 0x94]).getD j false ==
      ((bitsOfBytes [0xB4, 0x94]).getD j false ^^ decide (j = 2))) = true := by decide

/-- Another host's commands that keep `r = 3`, and a plan for two blocks; the fixed codecs, any pending
reset too. -/
theorem witness_BlocksMayBeIssuedInAnyOrder :
    (Codec.general 3).Ready (presented [.command ⟨0x1801, 0⟩, .command ⟨0x3801, 0⟩] (configured 3 0)) ∧
    (Codec.general 3).Undisturbed
      (presented [.command ⟨0x1801, 0⟩, .command ⟨0x3801, 0⟩] (configured 3 0)) ∧
    1 ≤ (Codec.general 3).k ∧
    IssuesEachBlockOnce [⟨1, 2⟩, ⟨0, 0⟩] (encodeCommands (.general 3) [0xA5]).length ∧
    IssuesEachBlockOnce [⟨1, 0⟩, ⟨0, 1⟩] (decodeCommands (.general 3) [0xB4, 0x94]).length ∧
    Codec.hamming74.Undisturbed (presented [.reset] State.reset) := by
  refine ⟨?_, ?_, by decide, by decide, by decide, fun _ h => Codec.noConfusion h⟩
  · intro r h; cases h; decide
  · intro r h e he
    cases h
    simp only [presented, List.mem_cons, List.not_mem_nil, or_false] at he
    rcases he with rfl | rfl
    · refine ⟨_, rfl, fun r' h' => ?_⟩
      have hd : decode 0x1801 = .ok (.cfg 3) := rfl
      rw [hd] at h'; cases h'; exact .inl rfl
    · refine ⟨_, rfl, fun r' h' => ?_⟩
      have hd : decode 0x3801 = .ok (.cfg 7) := rfl
      rw [hd] at h'; cases h'; exact .inr (.inr (by decide))

theorem witness_DriverRefusesEmptyBlocks : (Codec.general 1).k = 0 := by rfl

theorem witness_AssembledLinesDecode :
    (Instr.covers 127 64).wf = true ∧ 2 ^ 64 - 1 < 2 ^ 64 ∧ (Instr.cfg 128).wf = false := by decide

end Sys2Proof.Tests
end

section
/-! Proofs about the machine after reset (R31) and the coverage command (R111). -/

namespace Sys2Proof.Machine

/-! ## The machine after reset -/

/-- `CFG_R` is bound only while `CFG_VALID = 1` (R22), and the response rules (R126, R170, R171, R175)
only when there is a response. -/
theorem State.inv_of_unconfigured_of_noResponse {s : State} (hValid : s.cfgValid = false)
    (hResponse : s.response = none) : s.Inv := by
  constructor
  · intro hConfigured
    rw [hValid] at hConfigured
    exact absurd hConfigured Bool.false_ne_true
  · intro r hr
    rw [hResponse] at hr
    exact absurd hr (Option.not_mem_none r)

/-- Settles O12: the reset state is unconfigured and silent, so no value of `CFG_R` can break the
invariant. -/
theorem resetStateMeetsTheInvariant : Obligations.ResetStateMeetsTheInvariant :=
  ⟨reset_cfgValid, reset_rMax, reset_pending, reset_response, fun _ =>
    State.inv_of_unconfigured_of_noResponse reset_cfgValid reset_response⟩

/-! ## COVERS -/

theorem exec_covers_of_gt {p n : Nat} (hn : 64 < n) (s : State) :
    exec (.covers p n) s = .next (raise .invalidInput s) := by
  simp only [exec, execCovers, if_pos hn]

theorem exec_covers_of_le {p n : Nat} (hn : n ≤ 64) (s : State) :
    exec (.covers p n) s = .next (respond .ok (maskOf (coveredSet p n)) 0 s) := by
  simp only [exec, execCovers, if_neg (Nat.not_lt.mpr hn)]

/-- Bit `b` of a covered set's mask stands for position `b + 1` (R11, R101). Within the 64 positions of
the bus this is `getLsbD_maskOf`; above the bus every bit is 0 and no position is covered. -/
theorem getLsbD_maskOf_coveredSet {p n : Nat} (hn : n ≤ 64) (b : Nat) :
    (maskOf (coveredSet p n)).getLsbD b = true ↔ b + 1 ≤ n ∧ (b + 1) &&& p ≠ 0 := by
  rcases Nat.lt_or_ge b 64 with hb | hb
  · have hPositive : ∀ x ∈ coveredSet p n, 1 ≤ x := fun x hx => ((mem_coveredSet p n x).mp hx).1.1
    rw [getLsbD_maskOf _ hPositive b hb, decide_eq_true_iff, mem_coveredSet]
    simp
  · have hAbove : ¬ b + 1 ≤ n := by omega
    simp [BitVec.getLsbD_of_ge _ b hb, hAbove]

/-- Settles O27: by whether `n` is within the bus; there the mask is that of the covered set. -/
theorem coversResult : Obligations.CoversResult := fun p n s =>
  ⟨fun hn => exec_covers_of_gt hn s, fun hn =>
    ⟨maskOf (coveredSet p n), exec_covers_of_le hn s, getLsbD_maskOf_coveredSet hn⟩⟩

end Sys2Proof.Machine
end

section
/-! Proofs about the state (R20 to R32): what a command answers and changes, what a step can do, and
which runs can tell two configurations apart. -/

namespace Sys2Proof.Machine

/-! ## The value of an answer -/

theorem responseOf_encodeBlock_congr (r len : Nat) {s t : State} (hDin : s.din = t.din) :
    responseOf (encodeBlock r len s) = responseOf (encodeBlock r len t) := by
  unfold encodeBlock
  rw [hDin]
  split <;> rfl

theorem responseOf_decodeBlock_congr (r len : Nat) {s t : State} (hDin : s.din = t.din) :
    responseOf (decodeBlock r len s) = responseOf (decodeBlock r len t) := by
  unfold decodeBlock
  rw [hDin]
  split
  · rfl
  · cases hammingDecode r (lowBits (codeLength r) t.din) <;> rfl

/-- The two states configure the general codec alike: with the same `r`, or both not at all, and then
`CFG_R` does not count (R22). -/
def State.SameCodec (s t : State) : Prop :=
  s.cfgValid = t.cfgValid ∧ (s.cfgValid = true → s.cfgR = t.cfgR)

theorem responseOf_withGeneralCodec_congr {s t : State} (hCodec : s.SameCodec t)
    {run run' : Nat → Host.Outcome State Fault Refusal}
    (hRun : ∀ r, responseOf (run r) = responseOf (run' r)) :
    responseOf (withGeneralCodec s run) = responseOf (withGeneralCodec t run') := by
  obtain ⟨hValid, hR⟩ := hCodec
  unfold withGeneralCodec
  rw [← hValid]
  cases h : s.cfgValid with
  | false => rfl
  | true => rw [← hR h]; exact hRun _

/-- A response is a function of the command, `DIN`, `R_MAX` and, for `ENC.G` and `DEC.G` alone, the
general codec. -/
theorem responseOf_exec_congr {i : Instr} {s t : State} (hMax : s.rMax = t.rMax)
    (hDin : s.din = t.din)
    (hCodec : (∃ len, i = .encG len ∨ i = .decG len) → s.SameCodec t) :
    responseOf (exec i s) = responseOf (exec i t) := by
  cases i with
  | cfg r =>
    simp only [exec, execCfg, hMax]
    split <;> rfl
  | encG len =>
    exact responseOf_withGeneralCodec_congr (hCodec ⟨len, .inl rfl⟩) fun r =>
      responseOf_encodeBlock_congr r len hDin
  | decG len =>
    exact responseOf_withGeneralCodec_congr (hCodec ⟨len, .inr rfl⟩) fun r =>
      responseOf_decodeBlock_congr r len hDin
  | enc74 len => exact responseOf_encodeBlock_congr _ len hDin
  | dec74 len => exact responseOf_decodeBlock_congr _ len hDin
  | enc1511 len => exact responseOf_encodeBlock_congr _ len hDin
  | dec1511 len => exact responseOf_decodeBlock_congr _ len hDin
  | isPow2 pos => rfl
  | covers p n =>
    simp only [exec, execCovers]
    split <;> rfl

/-! ## The shape of an answer (R126, R170, R171, R175) -/

theorem raise_response_legal {e : Status} (hError : e.isError = true) (hLength : e ≠ .invalidLength)
    (nMax : Nat) (s : State) : ∀ rsp ∈ responseOf (.next (raise e s)), rsp.Legal nMax := by
  rintro _ ⟨⟩
  have hCorrected : e ≠ .corrected := fun h => by subst h; exact absurd hError (by decide)
  exact ⟨fun _ => ⟨rfl, rfl⟩, fun _ => rfl, fun h => absurd h hCorrected, hLength⟩

theorem respond_ok_response_legal (d : Bus) (nMax : Nat) (s : State) :
    ∀ rsp ∈ responseOf (.next (respond .ok d 0 s)), rsp.Legal nMax := by
  rintro _ ⟨⟩
  exact ⟨nofun, fun _ => rfl, nofun, nofun⟩

/-- The seven bits of `SYN` hold every position of a codeword the core knows. -/
theorem respond_corrected_response_legal (d : Bus) {nMax p : Nat} (hPos : 1 ≤ p) (hMax : p ≤ nMax)
    (hSyn : p < 128) (s : State) :
    ∀ rsp ∈ responseOf (.next (respond .corrected d (BitVec.ofNat 7 p) s)), rsp.Legal nMax := by
  have hToNat : (BitVec.ofNat 7 p).toNat = p := by
    rw [BitVec.toNat_ofNat]; exact Nat.mod_eq_of_lt hSyn
  rintro _ ⟨⟩
  exact ⟨nofun, nofun, fun _ => by rw [hToNat]; exact ⟨hPos, hMax⟩, nofun⟩

theorem encodeBlock_response_legal (r len nMax : Nat) (s : State) :
    ∀ rsp ∈ responseOf (encodeBlock r len s), rsp.Legal nMax := by
  unfold encodeBlock
  split
  · exact raise_response_legal rfl (by decide) _ _
  · exact respond_ok_response_legal _ _ _

theorem codeLength_le {r m : Nat} (h : r ≤ m) : codeLength r ≤ codeLength m :=
  Nat.sub_le_sub_right (Nat.pow_le_pow_right (by decide) h) 1

theorem codeLength_rMax_lt (m : RMax) : codeLength m.toNat < 128 := by cases m <;> decide

/-- A corrected position is the syndrome, which stays within the codeword (R124). -/
theorem decodeBlock_response_legal {r : Nat} {m : RMax} (hr : r ≤ m.toNat) (len : Nat) (s : State) :
    ∀ rsp ∈ responseOf (decodeBlock r len s), rsp.Legal (codeLength m.toNat) := by
  rw [decodeBlock_eq]
  split
  · exact raise_response_legal rfl (by decide) _ _
  · dsimp only
    split
    next => exact respond_ok_response_legal _ _ _
    next hSyndrome =>
      have hLe := (syndrome_le_codeLength r (lowBits (codeLength r) s.din)).trans (codeLength_le hr)
      exact respond_corrected_response_legal _ (Nat.pos_of_ne_zero hSyndrome) hLe
        (hLe.trans_lt (codeLength_rMax_lt m)) s

theorem withGeneralCodec_response_legal {s : State} (hConfig : s.LegalConfig) {nMax : Nat}
    {run : Nat → Host.Outcome State Fault Refusal}
    (hRun : ∀ r, r ≤ s.rMax.toNat → ∀ rsp ∈ responseOf (run r), rsp.Legal nMax) :
    ∀ rsp ∈ responseOf (withGeneralCodec s run), rsp.Legal nMax := by
  obtain ⟨-, hRaise⟩ | ⟨hValid, hRuns⟩ := withGeneralCodec_cases s run
  · rw [hRaise]; exact raise_response_legal rfl (by decide) _ _
  · rw [hRuns]; exact hRun _ (hConfig hValid).2

theorem exec_response_legal (i : Instr) {s : State} (hConfig : s.LegalConfig) :
    ∀ rsp ∈ responseOf (exec i s), rsp.Legal (codeLength s.rMax.toNat) := by
  have hFour : 4 ≤ s.rMax.toNat := (RMax_bounds s.rMax).1
  cases i with
  | cfg r =>
    simp only [exec, execCfg]
    split
    · exact raise_response_legal rfl (by decide) _ _
    · exact respond_ok_response_legal _ _ _
  | encG len =>
    exact withGeneralCodec_response_legal hConfig fun r _ => encodeBlock_response_legal r len _ s
  | decG len =>
    exact withGeneralCodec_response_legal hConfig fun _ hr => decodeBlock_response_legal hr len s
  | enc74 len => exact encodeBlock_response_legal _ len _ s
  | dec74 len => exact decodeBlock_response_legal ((by decide : hamming74R ≤ 4).trans hFour) len s
  | enc1511 len => exact encodeBlock_response_legal _ len _ s
  | dec1511 len => exact decodeBlock_response_legal hFour len s
  | isPow2 pos => exact respond_ok_response_legal _ _ _
  | covers p n =>
    rcases Nat.lt_or_ge 64 n with hn | hn
    · rw [exec_covers_of_gt hn]
      exact raise_response_legal rfl (by decide) _ _
    · rw [exec_covers_of_le hn]
      exact respond_ok_response_legal _ _ _

theorem runWord_response_legal (w : Word) {s : State} (hConfig : s.LegalConfig) :
    ∀ rsp ∈ responseOf (runWord w s), rsp.Legal (codeLength s.rMax.toNat) := by
  cases hDecode : decode w with
  | error e =>
    rw [runWord_of_error hDecode]
    exact raise_response_legal rfl (by decide) _ _
  | ok i => rw [runWord_of_ok hDecode]; exact exec_response_legal i hConfig

/-! ## What a command changes (R32, R47) -/

theorem exec_cfg_of_valid {r : Nat} {s : State} (hPos : 1 ≤ r) (hMax : r ≤ s.rMax.toNat) :
    exec (.cfg r) s = .next (respond .ok (configReply r) 0 (writeConfig r s)) := by
  have hValid : ¬ (r = 0 ∨ r > s.rMax.toNat) := by omega
  simp only [exec, execCfg, if_neg hValid]

theorem exec_goes (i : Instr) (s : State) : ∃ t, exec i s = .next t := by
  obtain ⟨_, h⟩ | ⟨_, _, _, _, h⟩ := exec_cases i s <;> exact ⟨_, h⟩

/-- Settles O18: a command changes its response only, or it is a `CFG`, which writes the configuration
beside it. -/
theorem execFrame : Obligations.ExecFrame := by
  intro i s t hExec
  obtain ⟨rsp, h⟩ | ⟨r, hCfg, -, -, h⟩ := exec_cases i s
  · cases h.symm.trans hExec
    exact ⟨rfl, rfl, rfl, rfl, fun _ => ⟨rfl, rfl⟩⟩
  · cases h.symm.trans hExec
    exact ⟨rfl, rfl, rfl, rfl, fun hNoCfg => absurd hCfg (hNoCfg r)⟩

/-- Settles O31: both commands answer, and `responseOf_exec_congr` says the answers are the same. -/
theorem responseDependsOnCommandAndConfiguration :
    Obligations.ResponseDependsOnCommandAndConfiguration := by
  intro i s t hMax hDin hConfig
  obtain ⟨s', hs⟩ := exec_goes i s
  obtain ⟨t', ht⟩ := exec_goes i t
  have hCodec : (∃ len, i = .encG len ∨ i = .decG len) → s.SameCodec t := by
    rintro ⟨len, hGeneral⟩
    obtain ⟨hValid, hR⟩ | ⟨-, hNoEnc, hNoDec⟩ := hConfig
    · exact ⟨hValid, fun _ => hR⟩
    · exact (hGeneral.elim (hNoEnc len) (hNoDec len)).elim
  have hSame := responseOf_exec_congr hMax hDin hCodec
  rw [hs, ht] at hSame
  exact ⟨s', t', hs, ht, hSame⟩

/-- A word changes the response only, or it is a `CFG` that succeeds; an illegal word is of the first
kind (R74). -/
theorem runWord_cases (w : Word) (s : State) :
    (∃ rsp, runWord w s = .next { s with response := some rsp }) ∨
    (∃ r, decode w = .ok (.cfg r) ∧ 1 ≤ r ∧ r ≤ s.rMax.toNat ∧
      runWord w s = .next (respond .ok (configReply r) 0 (writeConfig r s))) := by
  cases hDecode : decode w with
  | error e => exact .inl ⟨_, runWord_of_error hDecode s⟩
  | ok i =>
    rw [runWord_of_ok hDecode]
    obtain h | ⟨r, rfl, h⟩ := exec_cases i s
    · exact .inl h
    · exact .inr ⟨r, rfl, h⟩

/-- A word that is no `CFG`, or one that `R_MAX` refuses, changes the response only. -/
theorem runWord_of_no_config {w : Word} {s : State}
    (hNoCfg : ∀ r, decode w = .ok (.cfg r) → r = 0 ∨ s.rMax.toNat < r) :
    ∃ rsp, runWord w s = .next { s with response := some rsp } := by
  obtain h | ⟨r, hDecode, hPos, hMax, -⟩ := runWord_cases w s
  · exact h
  · have := hNoCfg r hDecode
    omega

/-! ## What a step does (R46, R190, R191) -/

/-- The command completes, and reset takes effect next (R191). -/
theorem step_of_completing {s : State} {c : Command} {rest : List HostEvent}
    (h : s.pending = .commandThenReset c :: rest) (hFree : Config.freeCompletes s.draws = true) :
    step s = runWord c.cmd (accept c (.reset :: rest) s) := by
  simp [step, serveOldest, h, serve, hFree]

/-- The command is discarded, and reset takes effect now (R191). -/
theorem step_of_discarding {s : State} {c : Command} {rest : List HostEvent}
    (h : s.pending = .commandThenReset c :: rest) (hFree : Config.freeCompletes s.draws = false) :
    step s = .next (takeReset rest (discard s)) := by
  simp [step, serveOldest, h, hFree]

/-- Everything a step can do: nothing, one command to its response, or a reset, which may discard a
command first. -/
theorem step_cases (s : State) :
    (s.pending = [] ∧ step s = .next (idle s)) ∨
    (∃ c rest after,
      (s.pending = .command c :: rest ∧ after = rest ∨
        s.pending = .commandThenReset c :: rest ∧ after = .reset :: rest) ∧
      step s = runWord c.cmd (accept c after s)) ∨
    (∃ rest, s.pending = .reset :: rest ∧ step s = .next (takeReset rest s)) ∨
    (∃ c rest, s.pending = .commandThenReset c :: rest ∧
      step s = .next (takeReset rest (discard s))) := by
  match hPending : s.pending with
  | [] => exact .inl ⟨rfl, step_of_idle hPending⟩
  | .command c :: rest => exact .inr (.inl ⟨c, rest, rest, .inl ⟨rfl, rfl⟩, step_of_command hPending⟩)
  | .reset :: rest => exact .inr (.inr (.inl ⟨rest, rfl, step_of_reset hPending⟩))
  | .commandThenReset c :: rest =>
    obtain hCompletes | hDiscards := step_of_commandThenReset hPending
    · exact .inr (.inl ⟨c, rest, .reset :: rest, .inr ⟨rfl, rfl⟩, hCompletes⟩)
    · exact .inr (.inr (.inr ⟨c, rest, rfl, hDiscards⟩))

/-- Settles O6: the step of a command, with `accept` written out, and the idle step. -/
theorem stepRunsTheDecodedCommand : Obligations.StepRunsTheDecodedCommand :=
  ⟨fun s _ _ _ hPending hDecode =>
    (step_of_command hPending).trans (runWord_of_ok hDecode (accept _ _ s)),
   fun _ hPending => step_of_idle hPending⟩

/-- Settles O8: the second reset draws the same free value, since no command moved the index. -/
theorem resetEventClearsTheConfiguration : Obligations.ResetEventClearsTheConfiguration := by
  intro s rest hPending
  refine ⟨takeReset rest s, step_of_reset hPending, rfl, rfl, rfl, rfl, ?_⟩
  intro rest' hAgain
  exact ⟨takeReset rest' (takeReset rest s), step_of_reset hAgain, rfl, rfl, rfl⟩

/-- A value `CFG` accepts fits the three bits of `CFG_R` (R22, R127). -/
theorem toNat_cfgR_of_le {r : Nat} {m : RMax} (h : r ≤ m.toNat) : (BitVec.ofNat 3 r).toNat = r := by
  have := (RMax_bounds m).2
  rw [BitVec.toNat_ofNat]
  exact Nat.mod_eq_of_lt (by omega)

theorem writeConfig_legalConfig {r : Nat} {s : State} (hPos : 1 ≤ r) (hMax : r ≤ s.rMax.toNat) :
    (writeConfig r s).LegalConfig := fun _ => by
  rw [writeConfig_cfgR, toNat_cfgR_of_le hMax]
  exact ⟨hPos, hMax⟩

/-- The response a word finds need not be legal: it is overwritten. -/
theorem runWord_inv {w : Word} {s t : State} (hConfig : s.LegalConfig) (hRun : runWord w s = .next t) :
    t.Inv := by
  have hResponse := runWord_response_legal w hConfig
  rw [hRun] at hResponse
  obtain ⟨rsp, h⟩ | ⟨r, -, hPos, hMax, h⟩ := runWord_cases w s
  · cases h.symm.trans hRun
    exact ⟨hConfig, hResponse⟩
  · cases h.symm.trans hRun
    exact ⟨writeConfig_legalConfig hPos hMax, hResponse⟩

/-- Settles O13: an idle step and a reset show no response; a command is `runWord_inv`. -/
theorem everyStepKeepsTheInvariant : Obligations.EveryStepKeepsTheInvariant := by
  rintro s t ⟨hConfig, -⟩ hStep
  obtain ⟨-, h⟩ | ⟨c, rest, after, -, h⟩ | ⟨rest, -, h⟩ | ⟨c, rest, -, h⟩ := step_cases s
  · cases h.symm.trans hStep
    exact ⟨hConfig, fun _ hNone => absurd hNone (Option.not_mem_none _)⟩
  · have hAccepted : (accept c after s).LegalConfig := hConfig
    exact runWord_inv hAccepted (h.symm.trans hStep)
  · cases h.symm.trans hStep
    exact State.inv_of_unconfigured_of_noResponse rfl rfl
  · cases h.symm.trans hStep
    exact State.inv_of_unconfigured_of_noResponse rfl rfl

/-- Settles O14: by what the step did; a command that is no successful `CFG` and an idle step leave the
configuration. -/
theorem stateChangesOnlyByCfgAndReset : Obligations.StateChangesOnlyByCfgAndReset := by
  intro s t hStep
  obtain ⟨-, h⟩ | ⟨c, rest, after, hPending, h⟩ | ⟨rest, hPending, h⟩ | ⟨c, rest, hPending, h⟩ :=
    step_cases s
  · cases h.symm.trans hStep
    exact ⟨rfl, .inl ⟨rfl, rfl⟩⟩
  · obtain ⟨rsp, hRun⟩ | ⟨r, hDecode, hPos, hMax, hRun⟩ := runWord_cases c.cmd (accept c after s)
    · cases hRun.symm.trans (h.symm.trans hStep)
      exact ⟨rfl, .inl ⟨rfl, rfl⟩⟩
    · cases hRun.symm.trans (h.symm.trans hStep)
      exact ⟨rfl, .inr (.inl ⟨c, rest, r, configReply r, hPending.imp And.left And.left, hDecode, hPos,
        hMax, rfl, toNat_cfgR_of_le hMax, rfl⟩)⟩
  · cases h.symm.trans hStep
    exact ⟨rfl, .inr (.inr ⟨rfl, rfl, rest, .inl hPending⟩)⟩
  · cases h.symm.trans hStep
    exact ⟨rfl, .inr (.inr ⟨rfl, rfl, rest, .inr ⟨c, hPending⟩⟩)⟩

/-! ## `CFG_R` while `CFG_VALID = 0` (R22, R31) -/

/-- The state with another value in `CFG_R`. -/
def withCfgR (v : BitVec 3) (s : State) : State := { s with cfgR := v }

/-- `CFG` reads `R_MAX` alone, and a successful one overwrites `CFG_R`. -/
theorem exec_cfg_withCfgR {r : Nat} {s : State} (hPos : 1 ≤ r) (hMax : r ≤ s.rMax.toNat)
    (v : BitVec 3) : exec (.cfg r) (withCfgR v s) = exec (.cfg r) s :=
  (exec_cfg_of_valid (s := withCfgR v s) hPos hMax).trans (exec_cfg_of_valid hPos hMax).symm

/-- Two runs lose the difference between their states in `CFG_R`, or keep it in an unconfigured state
and answer alike. -/
def ForgetsOrKeepsCfgR (v : BitVec 3) (o o' : Host.Outcome State Fault Refusal) : Prop :=
  o' = o ∨ ∃ t, t.cfgValid = false ∧ o = .next t ∧ o' = .next (withCfgR v t)

theorem exec_withCfgR {s : State} (hValid : s.cfgValid = false) (i : Instr) (v : BitVec 3) :
    ForgetsOrKeepsCfgR v (exec i s) (exec i (withCfgR v s)) := by
  have hCodec : s.SameCodec (withCfgR v s) :=
    ⟨rfl, fun h => absurd (hValid.symm.trans h) (by decide)⟩
  have hSame : responseOf (exec i s) = responseOf (exec i (withCfgR v s)) :=
    responseOf_exec_congr rfl rfl fun _ => hCodec
  obtain ⟨rsp, h⟩ | ⟨r, rfl, hPos, hMax, -⟩ := exec_cases i s
  · obtain ⟨rsp', h'⟩ | ⟨r, rfl, hPos, hMax, -⟩ := exec_cases i (withCfgR v s)
    · rw [h, h'] at hSame
      cases hSame
      exact .inr ⟨{ s with response := some rsp }, hValid, h, h'⟩
    · exact .inl (exec_cfg_withCfgR (s := s) hPos hMax v)
  · exact .inl (exec_cfg_withCfgR hPos hMax v)

theorem runWord_withCfgR {s : State} (hValid : s.cfgValid = false) (w : Word) (v : BitVec 3) :
    ForgetsOrKeepsCfgR v (runWord w s) (runWord w (withCfgR v s)) := by
  cases hDecode : decode w with
  | error e =>
    exact .inr ⟨raise .illegalCommand s, hValid, runWord_of_error hDecode s,
      runWord_of_error hDecode (withCfgR v s)⟩
  | ok i =>
    rw [runWord_of_ok hDecode, runWord_of_ok hDecode]
    exact exec_withCfgR hValid i v

/-- Reset draws a new `CFG_R`, so it forgets the old one. -/
theorem step_withCfgR {s : State} (hValid : s.cfgValid = false) (v : BitVec 3) :
    ForgetsOrKeepsCfgR v (step s) (step (withCfgR v s)) := by
  have hServe : ∀ c after, ForgetsOrKeepsCfgR v (runWord c.cmd (accept c after s))
      (runWord c.cmd (accept c after (withCfgR v s))) := fun c after =>
    runWord_withCfgR (s := accept c after s) hValid c.cmd v
  match hPending : s.pending with
  | [] =>
    exact .inr ⟨idle s, hValid, step_of_idle hPending, step_of_idle (s := withCfgR v s) hPending⟩
  | .command c :: rest =>
    rw [step_of_command hPending, step_of_command (s := withCfgR v s) hPending]
    exact hServe c rest
  | .reset :: rest =>
    rw [step_of_reset hPending, step_of_reset (s := withCfgR v s) hPending]
    exact .inl rfl
  | .commandThenReset c :: rest =>
    cases hFree : Config.freeCompletes s.draws with
    | true =>
      rw [step_of_completing hPending hFree, step_of_completing (s := withCfgR v s) hPending hFree]
      exact hServe c (.reset :: rest)
    | false =>
      rw [step_of_discarding hPending hFree, step_of_discarding (s := withCfgR v s) hPending hFree]
      exact .inl rfl

/-! ## Runs -/

theorem trace_succ_of_next {s t : State} (h : step s = .next t) (k : Nat) :
    trace (k + 1) s = t.response.toList ++ trace k t := by
  simp only [trace, h]

theorem trace_withCfgR (k : Nat) {s : State} (hValid : s.cfgValid = false) (v : BitVec 3) :
    trace k (withCfgR v s) = trace k s := by
  induction k generalizing s with
  | zero => rfl
  | succ k ih =>
    obtain hForgets | ⟨t, hValid', hs, hv⟩ := step_withCfgR hValid v
    · simp only [trace, hForgets]
    · rw [trace_succ_of_next hs, trace_succ_of_next hv, ih hValid']
      rfl

/-- Settles O32, by `trace_withCfgR`: no step of a run makes the difference in `CFG_R` visible. -/
theorem cfgRIsUnobservableWhileInvalid : Obligations.CfgRIsUnobservableWhileInvalid :=
  fun k _ v hValid => trace_withCfgR k hValid v

/-! ## Sequences of commands (R46) -/

/-- A sequence is answered by its first command's response, then by the responses to the rest in the
state that command left. -/
theorem responsesTo_cons {c : Command} {cs : List Command} {s t : State} {rsp : Response}
    (hRun : runWord c.cmd (accept c (cs.map .command) s) = .next t) (hResponse : t.response = some rsp) :
    responsesTo (c :: cs) s = rsp :: responsesTo cs t := by
  have hStep : step { s with pending := (c :: cs).map .command } = .next t :=
    (step_of_command rfl).trans hRun
  have hPending : t.pending = cs.map .command := by
    obtain ⟨_, h⟩ | ⟨_, -, -, -, h⟩ := runWord_cases c.cmd (accept c (cs.map .command) s) <;>
      cases h.symm.trans hRun <;> rfl
  have hState : { t with pending := cs.map .command } = t := by rw [← hPending]
  rw [responsesTo, List.length_cons, trace_succ_of_next hStep, hResponse, responsesTo, hState]
  rfl

/-- `NOT_CONFIGURED` before anything else (R172, R176). -/
theorem withGeneralCodec_of_unconfigured {s : State} (hValid : s.cfgValid = false)
    (run : Nat → Host.Outcome State Fault Refusal) :
    withGeneralCodec s run = .next (raise .notConfigured s) := by
  simp [withGeneralCodec, hValid]

theorem runWord_general_of_unconfigured {w : Word} {s : State}
    (hGeneral : ∃ len, decode w = .ok (.encG len) ∨ decode w = .ok (.decG len))
    (hValid : s.cfgValid = false) : runWord w s = .next (raise .notConfigured s) := by
  obtain ⟨len, hDecode | hDecode⟩ := hGeneral <;> rw [runWord_of_ok hDecode]
  · exact withGeneralCodec_of_unconfigured hValid fun r => encodeBlock r len s
  · exact withGeneralCodec_of_unconfigured hValid fun r => decodeBlock r len s

/-- Settles O33, by induction on the commands: none of them configures the core, so each finds it
unconfigured. -/
theorem notConfiguredUntilCfgSucceeds : Obligations.NotConfiguredUntilCfgSucceeds := by
  intro s cs hValid hNoCfg
  induction cs generalizing s with
  | nil => exact ⟨rfl, nofun⟩
  | cons c cs ih =>
    have hRefused := hNoCfg c List.mem_cons_self
    obtain ⟨rsp, hRun⟩ := runWord_of_no_config (s := accept c (cs.map .command) s) hRefused
    obtain ⟨hLength, hGet⟩ := ih { accept c (cs.map .command) s with response := some rsp } hValid
      fun d hd => hNoCfg d (List.mem_cons_of_mem c hd)
    rw [responsesTo_cons hRun rfl]
    refine ⟨by rw [List.length_cons, List.length_cons, hLength], ?_⟩
    intro j d hj hGeneral
    cases j with
    | succ j => exact hGet j d hj hGeneral
    | zero =>
      cases hj
      cases hRun.symm.trans (runWord_general_of_unconfigured hGeneral hValid)
      rfl

end Sys2Proof.Machine
end

section
/-! The position classifier and the codec's functions, bit by bit (R100 to R103, R122 to R126), up to the
round trip and the correction of one flipped bit (R131 to R133). -/

namespace Sys2Proof.Machine

/-! ## Powers of two (R100, R102, R103) -/

/-- A number with a single one bit is that bit's power; `popcount` counts the one bits up to `log2`, above
which there are none. -/
theorem isPowerOfTwo_iff (x : Nat) : isPowerOfTwo x = true ↔ ∃ j, x = 2 ^ j := by
  rw [isPowerOfTwo, beq_iff_eq, popcount, List.length_eq_one_iff]
  constructor
  · rintro ⟨j, hj⟩
    refine ⟨j, Nat.eq_of_testBit_eq fun i => ?_⟩
    have hMem : i ∈ (List.range (x.log2 + 1)).filter x.testBit ↔ i = j := by
      rw [hj, List.mem_singleton]
    rw [List.mem_filter, List.mem_range] at hMem
    rw [Nat.testBit_two_pow, Bool.eq_iff_iff, decide_eq_true_iff, eq_comm (a := j), ← hMem]
    refine ⟨fun hBit => ⟨?_, hBit⟩, And.right⟩
    have hx : x ≠ 0 := fun h => by simp [h] at hBit
    exact Nat.lt_succ_of_le ((Nat.le_log2 hx).mpr (Nat.ge_two_pow_of_testBit hBit))
  · rintro ⟨j, rfl⟩
    refine ⟨j, ?_⟩
    have hBelow : (List.range j).filter (2 ^ j).testBit = [] := by
      rw [List.filter_eq_nil_iff]
      intro i hi
      have : j ≠ i := (List.mem_range.mp hi).ne'
      simp [this]
    simp [Nat.log2_two_pow, List.range_succ, hBelow]

theorem mem_parityPositions (r x : Nat) : x ∈ parityPositions r ↔ ∃ j, j < r ∧ x = 2 ^ j := by
  simp [parityPositions, eq_comm]

theorem parityPositions_nodup (r : Nat) : (parityPositions r).Nodup :=
  List.nodup_range.map fun _ _ h => Nat.pow_right_injective (le_refl 2) h

theorem positions_nodup (n : Nat) : (positions n).Nodup := List.nodup_range'

theorem coveredSet_nodup (p n : Nat) : (coveredSet p n).Nodup := (positions_nodup n).filter _

theorem dataPositions_nodup (r : Nat) : (dataPositions r).Nodup := (positions_nodup _).filter _

theorem two_pow_le_codeLength {j r : Nat} (h : j < r) : 2 ^ j ≤ codeLength r := by
  have := Nat.pow_lt_pow_right (a := 2) (by decide) h
  unfold codeLength
  omega

/-- "exactly the positions `x` in `[1, n]` with `IsPow2(x)`" (R102). -/
theorem mem_parityPositions_iff_isPowerOfTwo (r x : Nat) :
    x ∈ parityPositions r ↔ (1 ≤ x ∧ x ≤ codeLength r) ∧ isPowerOfTwo x = true := by
  rw [mem_parityPositions, isPowerOfTwo_iff]
  constructor
  · rintro ⟨j, hj, rfl⟩
    exact ⟨⟨Nat.two_pow_pos j, two_pow_le_codeLength hj⟩, j, rfl⟩
  · rintro ⟨⟨-, hMax⟩, j, rfl⟩
    refine ⟨j, (Nat.pow_lt_pow_iff_right (a := 2) (by decide)).mp ?_, rfl⟩
    have := Nat.two_pow_pos r
    unfold codeLength at hMax
    omega

/-- `k = n - r` (R103): the positions split into the parity positions, `r` of them, and the data
positions. -/
theorem dataPositions_length (r : Nat) : (dataPositions r).length = dataLength r := by
  have hPerm : ((positions (codeLength r)).filter isPowerOfTwo).Perm (parityPositions r) := by
    refine (List.perm_ext_iff_of_nodup ((positions_nodup _).filter _) (parityPositions_nodup r)).mpr fun x => ?_
    rw [List.mem_filter, mem_positions, mem_parityPositions_iff_isPowerOfTwo]
  have hSplit := List.length_eq_length_filter_add (l := positions (codeLength r)) isPowerOfTwo
  have hParity : (parityPositions r).length = r := by simp [parityPositions]
  have hAll : (positions (codeLength r)).length = codeLength r := by simp [positions]
  rw [hPerm.length_eq, hParity, hAll] at hSplit
  unfold dataLength dataPositions
  omega

/-- The codewords of every `r` up to 6 fit the bus (R121). -/
theorem codeLength_le_63 {r : Nat} (hr : r ≤ 6) : codeLength r ≤ 63 := codeLength_le hr

theorem dataLength_le_codeLength (r : Nat) : dataLength r ≤ codeLength r := Nat.sub_le _ _

/-! ## Covered sets (R104) -/

/-- `2^j` covers `x` exactly when `x[j] = 1` (R104). -/
theorem mem_coveredSet_two_pow (j n x : Nat) :
    x ∈ coveredSet (2 ^ j) n ↔ (1 ≤ x ∧ x ≤ n) ∧ x.testBit j = true := by
  rw [mem_coveredSet, Nat.and_two_pow]
  cases x.testBit j <;> simp

/-- A parity position covers no other one (R104). -/
theorem eq_of_covered_parityPosition {r n p q : Nat} (hp : p ∈ parityPositions r)
    (hq : q ∈ parityPositions r) (hCovered : q ∈ coveredSet p n) : q = p := by
  obtain ⟨j, -, rfl⟩ := (mem_parityPositions r p).mp hp
  obtain ⟨k, -, rfl⟩ := (mem_parityPositions r q).mp hq
  have hBit := ((mem_coveredSet_two_pow j n _).mp hCovered).2
  rw [Nat.testBit_two_pow, decide_eq_true_iff] at hBit
  rw [hBit]

/-! ## Sums over a set of positions without repetition -/

/-- The sum over a set is one member's term and the sum over the others. -/
theorem xorOver_erase {S : List Nat} (hS : S.Nodup) {p : Nat} (hp : p ∈ S) (f : Nat → Bool) :
    xorOver S f = (f p ^^ xorOver (S.filter (· != p)) f) := by
  induction S with
  | nil => cases hp
  | cons x S ih =>
    obtain ⟨hx, hS⟩ := List.nodup_cons.mp hS
    rw [xorOver_cons]
    rcases List.mem_cons.mp hp with rfl | hp
    · have hRest : S.filter (· != p) = S := by
        rw [List.filter_eq_self]
        rintro y hy
        exact bne_iff_ne.mpr fun h => hx (h ▸ hy)
      simp [hRest]
    · have hne : x ≠ p := fun h => hx (h ▸ hp)
      rw [List.filter_cons_of_pos (by simpa using hne), xorOver_cons, ih hS hp, Bool.xor_left_comm]

theorem xorOver_false (S : List Nat) : xorOver S (fun _ => false) = false := by
  induction S with
  | nil => rfl
  | cons x S ih => rw [xorOver_cons, ih]; rfl

/-- The sum of one position's indicator says whether the position is in the set. -/
theorem xorOver_indicator {S : List Nat} (hS : S.Nodup) (p : Nat) :
    xorOver S (fun x => decide (x = p)) = decide (p ∈ S) := by
  by_cases hp : p ∈ S
  · have hRest : xorOver (S.filter (· != p)) (fun x => decide (x = p)) = false := by
      rw [← xorOver_false (S.filter (· != p))]
      exact xorOver_congr fun x hx => by simpa using (List.mem_filter.mp hx).2
    rw [xorOver_erase hS hp, hRest]
    simp [hp]
  · rw [decide_eq_false hp, ← xorOver_false S]
    exact xorOver_congr fun x hx => decide_eq_false fun h => hp (h ▸ hx)

/-! ## The encoder (R122) -/

theorem getLsbD_setAt_of_ne {v : Bus} {p i : Nat} (h : i ≠ p - 1) (b : Bool) :
    (setAt v p b).getLsbD i = v.getLsbD i := by
  rw [setAt, getLsbD_setBit, if_neg fun hc => h hc.1]

/-- A fold that writes positions of `1..n` only leaves the bus bits at `n` and above. -/
theorem getLsbD_foldl_setAt_of_ge {α : Type} {n i : Nat} (hi : n ≤ i) (S : List α) (pos : α → Nat)
    (bit : Bus → α → Bool) (hS : ∀ x ∈ S, 1 ≤ pos x ∧ pos x ≤ n) (v : Bus) :
    (S.foldl (fun v x => setAt v (pos x) (bit v x)) v).getLsbD i = v.getLsbD i := by
  induction S generalizing v with
  | nil => rfl
  | cons x S ih =>
    have hx := hS x List.mem_cons_self
    rw [List.foldl_cons, ih fun y hy => hS y (List.mem_cons_of_mem x hy),
      getLsbD_setAt_of_ne (by omega)]

/-- No bit of a codeword stands above `n` (R44, R122). -/
theorem getLsbD_hammingEncode_of_ge {r i : Nat} (hi : codeLength r ≤ i) (d : Bus) :
    (hammingEncode r d).getLsbD i = false := by
  have hParity : ∀ p ∈ parityPositions r, 1 ≤ p ∧ p ≤ codeLength r := fun p hp =>
    ((mem_parityPositions_iff_isPowerOfTwo r p).mp hp).1
  have hData : ∀ x ∈ (dataPositions r).zipIdx, 1 ≤ x.1 ∧ x.1 ≤ codeLength r := fun x hx =>
    ((mem_dataPositions r x.1).mp (List.fst_mem_of_mem_zipIdx hx)).1
  calc (hammingEncode r d).getLsbD i
      = (placeData r d).getLsbD i := getLsbD_foldl_setAt_of_ge hi _ id _ hParity _
    _ = (0 : Bus).getLsbD i :=
        getLsbD_foldl_setAt_of_ge hi _ Prod.fst (fun _ x => d.getLsbD x.2) hData 0
    _ = false := by simp

/-- Bits written one after the other at distinct positions of the bus. -/
theorem bitAt_foldl_setAt_zipIdx {S : List Nat} (hNodup : S.Nodup) (hS : ∀ x ∈ S, 1 ≤ x ∧ x ≤ 64)
    (f : Nat → Bool) (v : Bus) (start : Nat) {p : Nat} (hp : 1 ≤ p) :
    (∀ i, S[i]? = some p →
      bitAt ((S.zipIdx start).foldl (fun v x => setAt v x.1 (f x.2)) v) p = f (start + i)) ∧
    (p ∉ S → bitAt ((S.zipIdx start).foldl (fun v x => setAt v x.1 (f x.2)) v) p = bitAt v p) := by
  induction S generalizing v start with
  | nil => exact ⟨fun i h => by simp at h, fun _ => rfl⟩
  | cons x S ih =>
    obtain ⟨hxS, hNodup⟩ := List.nodup_cons.mp hNodup
    obtain ⟨hx1, hx64⟩ := hS x List.mem_cons_self
    obtain ⟨ihMem, ihNot⟩ := ih hNodup (fun y hy => hS y (List.mem_cons_of_mem x hy))
      (setAt v x (f start)) (start + 1)
    rw [List.zipIdx_cons, List.foldl_cons]
    constructor
    · rintro (_ | i) hi
      · cases hi
        rw [ihNot hxS, bitAt_setAt v p p _ hp hp, if_pos ⟨rfl, hx64⟩, Nat.add_zero]
      · rw [ihMem i hi, Nat.add_assoc, Nat.add_comm 1]
    · intro hpS
      obtain ⟨hpx, hpS⟩ := not_or.mp (mt List.mem_cons.mpr hpS)
      rw [ihNot hpS, bitAt_setAt v x p _ hx1 hp, if_neg fun h => hpx h.1]

theorem dataPosition_bounds {r p : Nat} (hr : r ≤ 6) (hp : p ∈ dataPositions r) : 1 ≤ p ∧ p ≤ 64 := by
  obtain ⟨⟨hp1, hpn⟩, -⟩ := (mem_dataPositions r p).mp hp
  have := codeLength_le_63 hr
  omega

theorem bitAt_placeData {r i p : Nat} (hr : r ≤ 6) (hp : (dataPositions r)[i]? = some p) (d : Bus) :
    bitAt (placeData r d) p = d.getLsbD i := by
  have hp1 := (dataPosition_bounds hr (List.mem_of_getElem? hp)).1
  obtain ⟨hMem, -⟩ := bitAt_foldl_setAt_zipIdx (dataPositions_nodup r)
    (fun _ => dataPosition_bounds hr) d.getLsbD 0 0 hp1
  rw [placeData, hMem i hp, Nat.zero_add]

/-- The parity bits written at `S`, in any order: each is a sum over bits that are no parity bits
themselves, so none reads another (R104). -/
theorem bitAt_foldl_fillParity {r : Nat} (hr : r ≤ 6) {S : List Nat} (hNodup : S.Nodup)
    (hS : ∀ p ∈ S, p ∈ parityPositions r) (cw : Bus) {x : Nat} (hx : 1 ≤ x) :
    bitAt (S.foldl (fillParity r) cw) x =
      if x ∈ S then xorOver ((coveredSet x (codeLength r)).filter (· != x)) (bitAt cw)
      else bitAt cw x := by
  induction S generalizing cw with
  | nil => rfl
  | cons p S ih =>
    obtain ⟨hpS, hNodup⟩ := List.nodup_cons.mp hNodup
    have hp := hS p List.mem_cons_self
    obtain ⟨hp1, hpn⟩ := ((mem_parityPositions_iff_isPowerOfTwo r p).mp hp).1
    have hp64 : p ≤ 64 := by have := codeLength_le_63 hr; omega
    have hOther : ∀ y, 1 ≤ y → y ≠ p → bitAt (fillParity r cw p) y = bitAt cw y := fun y hy hne => by
      rw [fillParity, bitAt_setAt _ p y _ hp1 hy, if_neg fun h => hne h.1]
    rw [List.foldl_cons, ih hNodup fun q hq => hS q (List.mem_cons_of_mem p hq)]
    by_cases hxS : x ∈ S
    · rw [if_pos hxS, if_pos (List.mem_cons_of_mem p hxS)]
      refine xorOver_congr fun y hy => ?_
      have hyx := (List.mem_filter.mp hy).1
      refine hOther y ((mem_coveredSet x _ y).mp hyx).1.1 ?_
      rintro rfl
      exact hpS (eq_of_covered_parityPosition (hS x (List.mem_cons_of_mem y hxS)) hp hyx ▸ hxS)
    · rw [if_neg hxS]
      by_cases hxp : x = p
      · subst hxp
        rw [if_pos List.mem_cons_self, fillParity, bitAt_setAt _ x x _ hp1 hp1, if_pos ⟨rfl, hp64⟩]
      · rw [if_neg fun h => (List.mem_cons.mp h).elim hxp hxS, hOther x hx hxp]

/-- `HammingEncode` writes the parity positions and leaves the data bits (R122). -/
theorem bitAt_hammingEncode {r : Nat} (hr : r ≤ 6) (d : Bus) {x : Nat} (hx : 1 ≤ x) :
    bitAt (hammingEncode r d) x =
      if x ∈ parityPositions r then
        xorOver ((coveredSet x (codeLength r)).filter (· != x)) (bitAt (placeData r d))
      else bitAt (placeData r d) x :=
  bitAt_foldl_fillParity hr (parityPositions_nodup r) (fun _ h => h) _ hx

theorem not_mem_parityPositions_of_data {r p : Nat} (hp : p ∈ dataPositions r) :
    p ∉ parityPositions r := by
  rw [mem_parityPositions_iff_isPowerOfTwo, ((mem_dataPositions r p).mp hp).2]
  exact fun h => Bool.false_ne_true h.2

/-- Data bit `i` stands at `dp_i` (R122). -/
theorem bitAt_hammingEncode_data {r i p : Nat} (hr : r ≤ 6) (hp : (dataPositions r)[i]? = some p)
    (d : Bus) : bitAt (hammingEncode r d) p = d.getLsbD i := by
  have hData := List.mem_of_getElem? hp
  rw [bitAt_hammingEncode hr d (dataPosition_bounds hr hData).1,
    if_neg (not_mem_parityPositions_of_data hData), bitAt_placeData hr hp]

/-- Each parity bit is the sum over the rest of its covered set (R122). -/
theorem bitAt_hammingEncode_parity {r p : Nat} (hr : r ≤ 6) (hp : p ∈ parityPositions r) (d : Bus) :
    bitAt (hammingEncode r d) p =
      xorOver ((coveredSet p (codeLength r)).filter (· != p)) (bitAt (hammingEncode r d)) := by
  rw [bitAt_hammingEncode hr d ((mem_parityPositions_iff_isPowerOfTwo r p).mp hp).1.1, if_pos hp]
  refine xorOver_congr fun y hy => ?_
  obtain ⟨hCovered, hne⟩ := List.mem_filter.mp hy
  have hNotParity : y ∉ parityPositions r := fun h =>
    bne_iff_ne.mp hne (eq_of_covered_parityPosition hp h hCovered)
  rw [bitAt_hammingEncode hr d ((mem_coveredSet p _ y).mp hCovered).1.1, if_neg hNotParity]

/-! ## The syndrome (R123, R124, R131) -/

theorem mem_coveredSet_two_pow_self {j r : Nat} (hj : j < r) : 2 ^ j ∈ coveredSet (2 ^ j) (codeLength r) :=
  (mem_coveredSet_two_pow j _ _).mpr ⟨⟨Nat.two_pow_pos j, two_pow_le_codeLength hj⟩, by simp⟩

/-- "Codewords have syndrome 0" (R131): a parity bit and the sum it was computed as cancel. -/
theorem syndrome_hammingEncode {r : Nat} (hr : r ≤ 6) (d : Bus) : syndrome r (hammingEncode r d) = 0 := by
  refine Nat.eq_of_testBit_eq fun j => ?_
  rw [testBit_syndrome, Nat.zero_testBit, Bool.and_eq_false_iff, decide_eq_false_iff_not,
    Decidable.or_iff_not_imp_left, not_not]
  intro hj
  rw [checkFails, xorOver_erase (coveredSet_nodup _ _) (mem_coveredSet_two_pow_self hj),
    bitAt_hammingEncode_parity hr ((mem_parityPositions r _).mpr ⟨j, hj, rfl⟩), Bool.xor_self]

theorem lt_two_pow_of_le_codeLength {r p : Nat} (h : p ≤ codeLength r) : p < 2 ^ r := by
  have := Nat.two_pow_pos r
  unfold codeLength at h
  omega

/-- A flip at position `p` adds `p` to the syndrome (R124): it fails just the checks that cover `p`. -/
theorem syndrome_flipAt {r p : Nat} (hr : r ≤ 6) (hp1 : 1 ≤ p) (hpn : p ≤ codeLength r) (c : Bus) :
    syndrome r (flipAt c p) = syndrome r c ^^^ p := by
  refine Nat.eq_of_testBit_eq fun j => ?_
  rw [Nat.testBit_xor, testBit_syndrome, testBit_syndrome]
  by_cases hj : j < r
  · have hCheck : checkFails r (flipAt c p) j = (checkFails r c j ^^ p.testBit j) :=
      calc checkFails r (flipAt c p) j
          = xorOver (coveredSet (2 ^ j) (codeLength r)) (fun x => bitAt c x ^^ decide (x = p)) := by
            refine xorOver_congr fun x hx => ?_
            obtain ⟨⟨hx1, hxn⟩, -⟩ := (mem_coveredSet _ _ x).mp hx
            have := codeLength_le_63 hr
            exact bitAt_flipAt c p x hp1 hx1 (by omega)
        _ = (checkFails r c j ^^ decide (p ∈ coveredSet (2 ^ j) (codeLength r))) := by
            rw [xorOver_xor, xorOver_indicator (coveredSet_nodup _ _), checkFails]
        _ = (checkFails r c j ^^ p.testBit j) := by
            simp only [mem_coveredSet_two_pow, hp1, hpn, and_self, true_and, Bool.decide_eq_true]
    simp [hj, hCheck]
  · have hHigh : p.testBit j = false := Nat.testBit_lt_two_pow
      ((lt_two_pow_of_le_codeLength hpn).trans_le (Nat.pow_le_pow_right (by decide) (by omega)))
    simp [hj, hHigh]

/-! ## The extractor (R125) and the corrected word (R126) -/

theorem extract_eq_busOf (r : Nat) (c : Bus) : extract r c = busOf ((dataPositions r).map (bitAt c)) := by
  rw [busOf, List.zipIdx_map, List.foldl_map]
  rfl

/-- No data bit stands above `k` (R44, R125). -/
theorem getLsbD_extract_of_ge {r i : Nat} (hi : dataLength r ≤ i) (c : Bus) :
    (extract r c).getLsbD i = false := by
  rcases Nat.lt_or_ge i 64 with h64 | h64
  · rw [extract_eq_busOf, getLsbD_busOf _ _ h64, List.getD_eq_default]
    rwa [List.length_map, dataPositions_length]
  · exact BitVec.getLsbD_of_ge _ _ h64

theorem getLsbD_extract {r i p : Nat} (hr : r ≤ 6) (hp : (dataPositions r)[i]? = some p) (c : Bus) :
    (extract r c).getLsbD i = bitAt c p := by
  have hi : i < dataLength r := dataPositions_length r ▸ (List.getElem?_eq_some_iff.mp hp).1
  have h64 : i < 64 := by
    have := codeLength_le_63 hr
    have := dataLength_le_codeLength r
    omega
  rw [extract_eq_busOf, getLsbD_busOf _ _ h64, List.getD_eq_getElem?_getD, List.getElem?_map, hp]
  rfl

/-- The data comes back from its codeword (R132). -/
theorem extract_hammingEncode {r : Nat} (hr : r ≤ 6) (d : Bus) :
    extract r (hammingEncode r d) = lowBits (dataLength r) d := by
  refine bus_ext fun i => ?_
  rw [getLsbD_lowBits]
  rcases Nat.lt_or_ge i (dataLength r) with hi | hi
  · obtain ⟨p, hp⟩ : ∃ p, (dataPositions r)[i]? = some p :=
      ⟨_, List.getElem?_eq_getElem (dataPositions_length r ▸ hi)⟩
    rw [getLsbD_extract hr hp, bitAt_hammingEncode_data hr hp, decide_eq_true hi, Bool.true_and]
  · rw [getLsbD_extract_of_ge hi, decide_eq_false (Nat.not_lt.mpr hi), Bool.false_and]

theorem flipAt_flipAt (c : Bus) (p : Nat) : flipAt (flipAt c p) p = c := by
  rw [flipAt, flipAt, BitVec.xor_assoc, BitVec.xor_self, BitVec.xor_zero]

/-- The word `HammingDecode` takes the data from: flipped at its syndrome, unless that is 0 (R126). -/
def correctedWord (r : Nat) (c : Bus) : Bus :=
  if syndrome r c = 0 then c else flipAt c (syndrome r c)

theorem correctedWord_of_codeword {r : Nat} (hr : r ≤ 6) (d : Bus) :
    correctedWord r (hammingEncode r d) = hammingEncode r d := by
  rw [correctedWord, if_pos (syndrome_hammingEncode hr d)]

theorem syndrome_flipped_codeword {r p : Nat} (hr : r ≤ 6) (hp1 : 1 ≤ p) (hpn : p ≤ codeLength r)
    (d : Bus) : syndrome r (flipAt (hammingEncode r d) p) = p := by
  rw [syndrome_flipAt hr hp1 hpn, syndrome_hammingEncode hr, Nat.zero_xor]

/-- One flipped bit of a codeword is repaired (R133). -/
theorem correctedWord_flipped_codeword {r p : Nat} (hr : r ≤ 6) (hp1 : 1 ≤ p) (hpn : p ≤ codeLength r)
    (d : Bus) : correctedWord r (flipAt (hammingEncode r d) p) = hammingEncode r d := by
  rw [correctedWord, syndrome_flipped_codeword hr hp1 hpn, if_neg (by omega), flipAt_flipAt]

end Sys2Proof.Machine
end

section
/-! The command words of well-formed commands decode back to them (R70 to R73, R80). -/

namespace Sys2Proof

/-- A field laid over a lower one adds up with it: the two share no bit. -/
theorem or_shiftLeft_eq_add {lo i : Nat} (hlo : lo < 2 ^ i) (hi : Nat) :
    lo ||| hi <<< i = lo + hi * 2 ^ i := by
  rw [Nat.or_comm, ← Nat.shiftLeft_add_eq_or_of_lt hlo, Nat.shiftLeft_eq, Nat.add_comm]

/-- The four fields of R70 at their places. -/
theorem toNat_commandWord {op len a b : Nat} (hop : op < 16) (hlen : len < 128) (ha : a < 128)
    (hb : b < 128) :
    (commandWord op len a b).toNat = op + len * 2 ^ 4 + a * 2 ^ 11 + b * 2 ^ 18 := by
  have hLen : op + len * 2 ^ 4 < 2 ^ 11 := by omega
  have hA : op + len * 2 ^ 4 + a * 2 ^ 11 < 2 ^ 18 := by omega
  rw [commandWord, BitVec.toNat_ofNat, or_shiftLeft_eq_add (i := 4) hop, or_shiftLeft_eq_add hLen,
    or_shiftLeft_eq_add hA]
  exact Nat.mod_eq_of_lt (by omega)

theorem field_eq (lo width : Nat) (w : Word) : field lo width w = w.toNat / 2 ^ lo % 2 ^ width := by
  rw [field, BitVec.extractLsb'_toNat, Nat.shiftRight_eq_div_pow]

/-- Each field of a command word is the value it was built from (R80). -/
theorem fields_commandWord {op len a b : Nat} (hop : op < 16) (hlen : len < 128) (ha : a < 128)
    (hb : b < 128) :
    fieldOp (commandWord op len a b) = op ∧ fieldLen (commandWord op len a b) = len ∧
    fieldA (commandWord op len a b) = a ∧ fieldB (commandWord op len a b) = b ∧
    fieldRsv (commandWord op len a b) = 0 := by
  simp only [fieldOp, fieldLen, fieldA, fieldB, fieldRsv, field_eq, toNat_commandWord hop hlen ha hb]
  omega

theorem fitsField_iff {v : Nat} : fitsField v = true ↔ v < 128 := decide_eq_true_iff

/-- A word whose only used field is `A` decodes to its command (R72), given the decoder's arm for its
opcode. -/
theorem decode_wordA {op a : Nat} {mk : Nat → Instr} (hop : op < 16) (ha : fitsField a = true)
    (hArm : ∀ w, fieldRsv w = 0 → fieldOp w = op → decode w = decodeA w mk) :
    decode (commandWord op 0 a 0) = .ok (mk a) := by
  obtain ⟨hOp, hLen, hA, hB, hRsv⟩ :=
    fields_commandWord hop (by decide : 0 < 128) (fitsField_iff.mp ha) (by decide : 0 < 128)
  rw [hArm _ hRsv hOp, decodeA, hLen, hA, hB]
  rfl

/-- A word whose only used field is `LEN` decodes to its command (R72), given the decoder's arm for its
opcode. -/
theorem decode_wordLen {op len : Nat} {mk : Nat → Instr} (hop : op < 16) (hlen : fitsField len = true)
    (hArm : ∀ w, fieldRsv w = 0 → fieldOp w = op → decode w = decodeLen w mk) :
    decode (commandWord op len 0 0) = .ok (mk len) := by
  obtain ⟨hOp, hLen, hA, hB, hRsv⟩ :=
    fields_commandWord hop (fitsField_iff.mp hlen) (by decide : 0 < 128) (by decide : 0 < 128)
  rw [hArm _ hRsv hOp, decodeLen, hLen, hA, hB]
  rfl

/-- Every well-formed command comes back from its word (R70, R72, R80). -/
theorem decode_encode {i : Instr} (hWf : i.wf = true) : decode (encode i) = .ok i := by
  cases i with
  | cfg r => exact decode_wordA (by decide) hWf fun w hRsv hOp => by simp [decode, hRsv, hOp]
  | encG len => exact decode_wordLen (by decide) hWf fun w hRsv hOp => by simp [decode, hRsv, hOp]
  | decG len => exact decode_wordLen (by decide) hWf fun w hRsv hOp => by simp [decode, hRsv, hOp]
  | enc74 len => exact decode_wordLen (by decide) hWf fun w hRsv hOp => by simp [decode, hRsv, hOp]
  | dec74 len => exact decode_wordLen (by decide) hWf fun w hRsv hOp => by simp [decode, hRsv, hOp]
  | enc1511 len => exact decode_wordLen (by decide) hWf fun w hRsv hOp => by simp [decode, hRsv, hOp]
  | dec1511 len => exact decode_wordLen (by decide) hWf fun w hRsv hOp => by simp [decode, hRsv, hOp]
  | isPow2 pos => exact decode_wordA (by decide) hWf fun w hRsv hOp => by simp [decode, hRsv, hOp]
  | covers p n =>
    obtain ⟨hp, hn⟩ := Bool.and_eq_true_iff.mp hWf
    obtain ⟨hOp, hLen, hA, hB, hRsv⟩ := fields_commandWord (by decide : 9 < 16) (by decide : 0 < 128)
      (fitsField_iff.mp hp) (fitsField_iff.mp hn)
    simp [decode, encode, whenUnusedZero, hOp, hLen, hA, hB, hRsv]

end Sys2Proof
end

section
/-! Proofs about the port: which bits of `DIN` and `DOUT` count (R43, R44), what the block commands answer
at their own length, and sequences of commands of one or several hosts (R46, R50, R194). -/

namespace Sys2Proof.Machine

/-! ## Bits of `DIN` (R43) -/

theorem lowBits_congr {len : Nat} {a b : Bus} (h : ∀ j, j < len → a.getLsbD j = b.getLsbD j) :
    lowBits len a = lowBits len b := by
  refine bus_ext fun i => ?_
  rw [getLsbD_lowBits, getLsbD_lowBits]
  by_cases hi : i < len
  · rw [h i hi]
  · simp [hi]

/-- The two states have the same configuration, on the same implementation. -/
def State.SameConfig (s t : State) : Prop :=
  s.rMax = t.rMax ∧ s.cfgValid = t.cfgValid ∧ s.cfgR = t.cfgR

theorem responseOf_encodeBlock_of_lowBits {r : Nat} (len : Nat) {s t : State}
    (hDin : lowBits (dataLength r) s.din = lowBits (dataLength r) t.din) :
    responseOf (encodeBlock r len s) = responseOf (encodeBlock r len t) := by
  unfold encodeBlock
  rw [hDin]
  split <;> rfl

theorem responseOf_decodeBlock_of_lowBits {r : Nat} (len : Nat) {s t : State}
    (hDin : lowBits (codeLength r) s.din = lowBits (codeLength r) t.din) :
    responseOf (decodeBlock r len s) = responseOf (decodeBlock r len t) := by
  unfold decodeBlock
  rw [hDin]
  split
  · rfl
  · cases hammingDecode r (lowBits (codeLength r) t.din) <;> rfl

theorem responseOf_withGeneralCodec_of_config {s t : State} (hConfig : s.SameConfig t)
    {run run' : Nat → Host.Outcome State Fault Refusal}
    (hRun : responseOf (run s.cfgR.toNat) = responseOf (run' s.cfgR.toNat)) :
    responseOf (withGeneralCodec s run) = responseOf (withGeneralCodec t run') := by
  obtain ⟨-, hValid, hR⟩ := hConfig
  unfold withGeneralCodec
  rw [← hValid, ← hR]
  cases s.cfgValid with
  | false => rfl
  | true => exact hRun

/-- A response reads no bit of `DIN` above the command's block (R43). -/
theorem responseOf_exec_of_inputBits {i : Instr} {s t : State} (hConfig : s.SameConfig t)
    (hDin : lowBits (inputBits i s) s.din = lowBits (inputBits i s) t.din) :
    responseOf (exec i s) = responseOf (exec i t) := by
  cases i with
  | cfg r =>
    simp only [exec, execCfg, hConfig.1]
    split <;> rfl
  | encG len =>
    exact responseOf_withGeneralCodec_of_config hConfig (run := fun r => encodeBlock r len s)
      (run' := fun r => encodeBlock r len t) (responseOf_encodeBlock_of_lowBits len hDin)
  | decG len =>
    exact responseOf_withGeneralCodec_of_config hConfig (run := fun r => decodeBlock r len s)
      (run' := fun r => decodeBlock r len t) (responseOf_decodeBlock_of_lowBits len hDin)
  | enc74 len => exact responseOf_encodeBlock_of_lowBits len hDin
  | dec74 len => exact responseOf_decodeBlock_of_lowBits len hDin
  | enc1511 len => exact responseOf_encodeBlock_of_lowBits len hDin
  | dec1511 len => exact responseOf_decodeBlock_of_lowBits len hDin
  | isPow2 pos => rfl
  | covers p n =>
    simp only [exec, execCovers]
    split <;> rfl

theorem exec_cfg_of_invalid {r : Nat} {s : State} (h : ¬ (1 ≤ r ∧ r ≤ s.rMax.toNat)) :
    exec (.cfg r) s = .next (raise .invalidParameter s) := by
  have hInvalid : r = 0 ∨ r > s.rMax.toNat := by omega
  simp only [exec, execCfg, if_pos hInvalid]

/-- A command takes two states of one configuration to states of one configuration: only `CFG` writes it,
and `CFG` reads `R_MAX` alone (R32, R127). -/
theorem exec_sameConfig {i : Instr} {s t s' t' : State} (hConfig : s.SameConfig t)
    (hs : exec i s = .next s') (ht : exec i t = .next t') : s'.SameConfig t' := by
  obtain ⟨hMax, hValid, hR⟩ := hConfig
  by_cases hCfg : ∃ r, i = .cfg r
  · obtain ⟨r, rfl⟩ := hCfg
    by_cases hr : 1 ≤ r ∧ r ≤ s.rMax.toNat
    · cases (exec_cfg_of_valid hr.1 hr.2).symm.trans hs
      cases (exec_cfg_of_valid hr.1 (hMax ▸ hr.2)).symm.trans ht
      exact ⟨hMax, rfl, rfl⟩
    · cases (exec_cfg_of_invalid hr).symm.trans hs
      cases (exec_cfg_of_invalid (hMax ▸ hr)).symm.trans ht
      exact ⟨hMax, hValid, hR⟩
  · have hNoCfg := not_exists.mp hCfg
    obtain ⟨hMax₁, -, -, -, hKept₁⟩ := execFrame i s s' hs
    obtain ⟨hMax₂, -, -, -, hKept₂⟩ := execFrame i t t' ht
    obtain ⟨hValid₁, hR₁⟩ := hKept₁ hNoCfg
    obtain ⟨hValid₂, hR₂⟩ := hKept₂ hNoCfg
    exact ⟨by rw [hMax₁, hMax₂, hMax], by rw [hValid₁, hValid₂, hValid], by rw [hR₁, hR₂, hR]⟩

/-- Settles O29: both commands answer; the responses agree by `responseOf_exec_of_inputBits`, the
configurations by `exec_sameConfig`. -/
theorem ignoredDinBits : Obligations.IgnoredDinBits := by
  intro i s a b hBits
  have hConfig : { s with din := a }.SameConfig { s with din := b } := ⟨rfl, rfl, rfl⟩
  have hBlock : inputBits i { s with din := a } = inputBits i s := by cases i <;> rfl
  obtain ⟨t, ht⟩ := exec_goes i { s with din := a }
  obtain ⟨u, hu⟩ := exec_goes i { s with din := b }
  have hResponse := responseOf_exec_of_inputBits (i := i) hConfig (hBlock.symm ▸ lowBits_congr hBits)
  rw [ht, hu] at hResponse
  obtain ⟨-, hValid, hR⟩ := exec_sameConfig hConfig ht hu
  exact ⟨t, u, ht, hu, hResponse, hValid, hR⟩

/-! ## Bits of `DOUT` (R44) -/

/-- The response drives 0 on the `DOUT` bits at `width` and above. -/
def Response.Within (width : Nat) (rsp : Response) : Prop :=
  ∀ b, width ≤ b → rsp.dout.getLsbD b = false

theorem raise_response_within (e : Status) (width : Nat) (s : State) :
    ∀ rsp ∈ responseOf (.next (raise e s)), rsp.Within width := by
  rintro _ ⟨⟩ b -
  exact BitVec.getLsbD_zero

theorem respond_response_within {d : Bus} {width : Nat} (hd : ∀ b, width ≤ b → d.getLsbD b = false)
    (st : Status) (y : Syn) (s : State) :
    ∀ rsp ∈ responseOf (.next (respond st d y s)), rsp.Within width := by
  rintro _ ⟨⟩
  exact hd

theorem encodeBlock_response_within (r len : Nat) (s : State) :
    ∀ rsp ∈ responseOf (encodeBlock r len s), rsp.Within (codeLength r) := by
  unfold encodeBlock
  split
  · exact raise_response_within _ _ _
  · exact respond_response_within (fun _ hb => getLsbD_hammingEncode_of_ge hb _) _ _ _

theorem decodeBlock_response_within (r len : Nat) (s : State) :
    ∀ rsp ∈ responseOf (decodeBlock r len s), rsp.Within (dataLength r) := by
  rw [decodeBlock_eq]
  split
  · exact raise_response_within _ _ _
  · dsimp only
    split <;> exact respond_response_within (fun _ hb => getLsbD_extract_of_ge hb _) _ _ _

theorem withGeneralCodec_response_within {s : State} {width : Nat}
    {run : Nat → Host.Outcome State Fault Refusal}
    (hRun : ∀ rsp ∈ responseOf (run s.cfgR.toNat), rsp.Within width) :
    ∀ rsp ∈ responseOf (withGeneralCodec s run), rsp.Within width := by
  obtain ⟨-, hRaise⟩ | ⟨-, hRuns⟩ := withGeneralCodec_cases s run
  · rw [hRaise]; exact raise_response_within _ _ _
  · rw [hRuns]; exact hRun

/-- `DOUT[7:0] = n` and `DOUT[15:8] = k` (R127). -/
theorem getLsbD_configReply_of_ge (r : Nat) {b : Nat} (hb : 16 ≤ b) :
    (configReply r).getLsbD b = false := by
  rw [configReply, BitVec.getLsbD_setWidth, BitVec.getLsbD_of_ge _ b hb, Bool.and_false]

theorem exec_response_within (i : Instr) (s : State) :
    ∀ rsp ∈ responseOf (exec i s), rsp.Within (outputBits i s) := by
  cases i with
  | cfg r =>
    simp only [exec, execCfg]
    split
    · exact raise_response_within _ _ _
    · exact respond_response_within (fun _ => getLsbD_configReply_of_ge r) _ _ _
  | encG len =>
    exact withGeneralCodec_response_within (run := fun r => encodeBlock r len s)
      (encodeBlock_response_within _ len s)
  | decG len =>
    exact withGeneralCodec_response_within (run := fun r => decodeBlock r len s)
      (decodeBlock_response_within _ len s)
  | enc74 len => exact encodeBlock_response_within _ len s
  | dec74 len => exact decodeBlock_response_within _ len s
  | enc1511 len => exact encodeBlock_response_within _ len s
  | dec1511 len => exact decodeBlock_response_within _ len s
  | isPow2 pos =>
    refine respond_response_within (fun b hb => ?_) _ _ _
    have hb : b ≠ 0 := Nat.ne_of_gt hb
    split
    · simp [hb]
    · exact BitVec.getLsbD_zero
  | covers p n =>
    rcases Nat.lt_or_ge 64 n with hn | hn
    · rw [exec_covers_of_gt hn]
      exact raise_response_within _ _ _
    · rw [exec_covers_of_le hn]
      refine respond_response_within (fun b hb => Bool.eq_false_iff.mpr fun hBit => ?_) _ _ _
      exact Nat.not_lt.mpr hb ((getLsbD_maskOf_coveredSet hn b).mp hBit).1

/-- Settles O30, by `exec_response_within`. -/
theorem unusedOutputBitsAreZero : Obligations.UnusedOutputBitsAreZero := by
  intro i s t r hExec hResponse
  have hWithin := exec_response_within i s
  rw [hExec] at hWithin
  exact hWithin r hResponse

/-! ## The block commands at their own length (R128, R129) -/

/-- What a decode command answers to the received word `c` (R126, R129). -/
def decodeResponse (r : Nat) (c : Bus) : Response :=
  if syndrome r c = 0 then ⟨.ok, extract r c, 0⟩
  else ⟨.corrected, extract r (flipAt c (syndrome r c)), BitVec.ofNat 7 (syndrome r c)⟩

theorem encodeBlock_of_length (r : Nat) (s : State) :
    encodeBlock r (dataLength r) s =
      .next { s with response := some ⟨.ok, hammingEncode r (lowBits (dataLength r) s.din), 0⟩ } := by
  rw [encodeBlock, if_neg (not_not.mpr rfl), respond_eq]

theorem decodeBlock_of_length (r : Nat) (s : State) :
    decodeBlock r (codeLength r) s =
      .next { s with response := some (decodeResponse r (lowBits (codeLength r) s.din)) } := by
  rw [decodeBlock_eq, if_neg (not_not.mpr rfl), decodeResponse]
  dsimp only
  split <;> rfl

theorem withGeneralCodec_of_configured {s : State} (hValid : s.cfgValid = true)
    (run : Nat → Host.Outcome State Fault Refusal) : withGeneralCodec s run = run s.cfgR.toNat := by
  simp [withGeneralCodec, hValid]

theorem exec_encG_of_configured {r : Nat} {s : State} (hValid : s.cfgValid = true)
    (hR : s.cfgR.toNat = r) :
    exec (.encG (dataLength r)) s =
      .next { s with response := some ⟨.ok, hammingEncode r (lowBits (dataLength r) s.din), 0⟩ } := by
  subst hR
  exact (withGeneralCodec_of_configured hValid fun r => encodeBlock r _ s).trans (encodeBlock_of_length _ s)

theorem exec_decG_of_configured {r : Nat} {s : State} (hValid : s.cfgValid = true)
    (hR : s.cfgR.toNat = r) :
    exec (.decG (codeLength r)) s =
      .next { s with response := some (decodeResponse r (lowBits (codeLength r) s.din)) } := by
  subst hR
  exact (withGeneralCodec_of_configured hValid fun r => decodeBlock r _ s).trans (decodeBlock_of_length _ s)

theorem wf_encG_dataLength {r : Nat} (hr : r ≤ 6) : (Instr.encG (dataLength r)).wf = true :=
  fitsField_iff.mpr ((dataLength_le_codeLength r).trans_lt ((codeLength_le_63 hr).trans_lt (by decide)))

theorem wf_decG_codeLength {r : Nat} (hr : r ≤ 6) : (Instr.decG (codeLength r)).wf = true :=
  fitsField_iff.mpr ((codeLength_le_63 hr).trans_lt (by decide))

/-! ## A `CFG` and the command after it (R194) -/

/-- `zext_64({k[7:0], n[7:0]})` as a number, `n` and `k` being below 256 (R127). -/
theorem configReply_eq {r : Nat} (hr : r ≤ 6) :
    configReply r = BitVec.ofNat 64 (codeLength r + 256 * dataLength r) := by
  interval_cases r <;> rfl

/-- A successful `CFG`, then a command that answers at the new `r`. -/
theorem responsesTo_cfg_then {s : State} {r : Nat} (hPos : 1 ≤ r) (hMax : r ≤ s.rMax.toNat) (a : Bus)
    {c : Command} {i : Instr} {rsp : Response} (hDecode : decode c.cmd = .ok i)
    (hAnswer : ∀ t : State, t.cfgValid = true → t.cfgR.toNat = r → t.din = c.din →
      exec i t = .next { t with response := some rsp }) :
    responsesTo [⟨encode (.cfg r), a⟩, c] s =
      [⟨.ok, BitVec.ofNat 64 (codeLength r + 256 * dataLength r), 0⟩, rsp] := by
  have hr6 : r ≤ 6 := hMax.trans (RMax_bounds s.rMax).2
  have hWf : (Instr.cfg r).wf = true := fitsField_iff.mpr (by omega)
  have hCfg : runWord (encode (.cfg r)) (accept ⟨encode (.cfg r), a⟩ ([c].map .command) s) =
      .next (respond .ok (configReply r) 0
        (writeConfig r (accept ⟨encode (.cfg r), a⟩ ([c].map .command) s))) :=
    (runWord_of_ok (decode_encode hWf) _).trans (exec_cfg_of_valid hPos hMax)
  have hConfigured := hAnswer
    (accept c [] (respond .ok (configReply r) 0
      (writeConfig r (accept ⟨encode (.cfg r), a⟩ ([c].map .command) s)))) rfl (toNat_cfgR_of_le hMax) rfl
  have hFirst := responsesTo_cons (c := ⟨encode (.cfg r), a⟩) (cs := [c]) hCfg (respond_response _ _ _ _)
  have hSecond := responsesTo_cons (cs := []) ((runWord_of_ok hDecode _).trans hConfigured) rfl
  rw [hFirst, hSecond, configReply_eq hr6]
  rfl

/-- Settles O34: both commands answer at the `r` that `CFG` wrote. -/
theorem cfgTakesEffectForTheNextCommand : Obligations.CfgTakesEffectForTheNextCommand := by
  intro s r a d hPos hMax
  have hr6 : r ≤ 6 := hMax.trans (RMax_bounds s.rMax).2
  constructor
  · refine responsesTo_cfg_then hPos hMax a (decode_encode (wf_encG_dataLength hr6)) ?_
    rintro t hValid hR rfl
    exact exec_encG_of_configured hValid hR
  · refine responsesTo_cfg_then hPos hMax a (decode_encode (wf_decG_codeLength hr6)) ?_
    rintro t hValid hR rfl
    exact exec_decG_of_configured hValid hR

/-! ## Sequences without `CFG` (R46, R50) -/

/-- A word's response depends on the configuration and `DIN` alone (R50). -/
theorem responseOf_runWord_congr {w : Word} {s t : State} (hConfig : s.SameConfig t)
    (hDin : s.din = t.din) : responseOf (runWord w s) = responseOf (runWord w t) := by
  cases hDecode : decode w with
  | error e => rw [runWord_of_error hDecode, runWord_of_error hDecode]; rfl
  | ok i =>
    rw [runWord_of_ok hDecode, runWord_of_ok hDecode]
    exact responseOf_exec_of_inputBits hConfig (by rw [hDin])

/-- Every command is answered, once. -/
theorem responseOf_runWord_isSome (w : Word) (s : State) : ∃ rsp, responseOf (runWord w s) = some rsp := by
  obtain ⟨rsp, h⟩ | ⟨r, -, -, -, h⟩ := runWord_cases w s <;> exact ⟨_, by rw [h]; rfl⟩

theorem responsesTo_singleton (c : Command) (s : State) :
    responsesTo [c] s = (responseOf (runWord c.cmd (accept c [] s))).toList := by
  obtain ⟨rsp, h⟩ | ⟨r, -, -, -, h⟩ := runWord_cases c.cmd (accept c [] s)
  · rw [responsesTo_cons h rfl, h]; rfl
  · rw [responsesTo_cons h rfl, h]; rfl

/-- A command alone is answered alike in two states of one configuration. -/
theorem responsesTo_singleton_congr {s t : State} (hConfig : s.SameConfig t) (c : Command) :
    responsesTo [c] s = responsesTo [c] t := by
  have hAccepted : (accept c [] s).SameConfig (accept c [] t) := hConfig
  rw [responsesTo_singleton, responsesTo_singleton, responseOf_runWord_congr hAccepted rfl]

/-- Settles O36, by induction on the commands: none of them is a `CFG`, so each leaves the
configuration for the next. -/
theorem eachCommandAnswersAsAlone : Obligations.EachCommandAnswersAsAlone := by
  intro s cs hNoCfg
  induction cs generalizing s with
  | nil => rfl
  | cons c cs ih =>
    have hRefused : ∀ r, decode c.cmd = .ok (.cfg r) → r = 0 ∨ s.rMax.toNat < r := fun r h =>
      absurd h (hNoCfg c List.mem_cons_self r)
    obtain ⟨rsp, hRun⟩ := runWord_of_no_config (s := accept c (cs.map .command) s) hRefused
    have hAlone : responsesTo [c] s = [rsp] := by
      have hAccepted : (accept c [] s).SameConfig (accept c (cs.map .command) s) := ⟨rfl, rfl, rfl⟩
      rw [responsesTo_singleton, responseOf_runWord_congr hAccepted rfl, hRun]
      rfl
    have hKept : { accept c (cs.map .command) s with response := some rsp }.SameConfig s :=
      ⟨rfl, rfl, rfl⟩
    rw [responsesTo_cons hRun rfl, ih _ fun d hd => hNoCfg d (List.mem_cons_of_mem c hd),
      List.flatMap_cons, hAlone, funext (responsesTo_singleton_congr hKept)]
    rfl

/-- A sequence without `CFG` is answered one response a command, each a function of its command. -/
theorem responsesTo_eq_map {s : State} {answer : Command → Response}
    (hAnswer : ∀ c, responsesTo [c] s = [answer c]) {cs : List Command}
    (hNoCfg : ∀ c ∈ cs, ∀ r, decode c.cmd ≠ .ok (.cfg r)) : responsesTo cs s = cs.map answer := by
  rw [eachCommandAnswersAsAlone s cs hNoCfg, funext hAnswer, ← List.map_eq_flatMap]

theorem Interleaves.map {α β : Type} (f : α → β) {xs ys zs : List α} (h : Interleaves xs ys zs) :
    Interleaves (xs.map f) (ys.map f) (zs.map f) := by
  induction h with
  | done => exact .done
  | first x _ ih => exact .first (f x) ih
  | second y _ ih => exact .second (f y) ih

/-- A serialization holds no other commands than the hosts'. -/
theorem Interleaves.mem {α : Type} {xs ys zs : List α} (h : Interleaves xs ys zs) {z : α}
    (hz : z ∈ zs) : z ∈ xs ++ ys := by
  induction h with
  | done => exact hz
  | first x _ ih =>
    rcases List.mem_cons.mp hz with rfl | hz
    · exact List.mem_cons_self
    · exact List.mem_cons_of_mem x (ih hz)
  | second y _ ih =>
    rcases List.mem_cons.mp hz with rfl | hz
    · simp
    · have := ih hz
      simp only [List.mem_append, List.mem_cons] at this ⊢
      tauto

/-- Settles O37: the responses are the commands' images under one function, and so are the pairs of
command and response, which interleave as the commands do. -/
theorem hostsShareThePort : Obligations.HostsShareThePort := by
  intro s xs ys zs hNoCfg hSerial
  have hOne : ∀ c, ∃ rsp, responsesTo [c] s = [rsp] := fun c => by
    obtain ⟨rsp, h⟩ := responseOf_runWord_isSome c.cmd (accept c [] s)
    exact ⟨rsp, by rw [responsesTo_singleton, h]; rfl⟩
  choose answer hAnswer using hOne
  have hPairs : ∀ cs : List Command, (∀ c ∈ cs, c ∈ xs ++ ys) →
      cs.zip (responsesTo cs s) = cs.map fun c => (c, answer c) := fun cs hcs => by
    rw [responsesTo_eq_map hAnswer fun c hc => hNoCfg c (hcs c hc), List.map_prod_left_eq_zip]
  constructor
  · rw [responsesTo_eq_map hAnswer fun c hc => hNoCfg c (hSerial.mem hc), List.length_map]
  · rw [hPairs xs fun _ => List.mem_append_left ys, hPairs ys fun _ => List.mem_append_right xs,
      hPairs zs fun _ => hSerial.mem]
    exact hSerial.map _

end Sys2Proof.Machine
end

section
/-! Bytes and bit streams (R56, R57). -/

namespace Sys2Proof.Machine

/-! ## Streams of blocks of one length -/

theorem length_flatMap_blocks {α β : Type} {len : Nat} {f : α → List β} (hLen : ∀ x, (f x).length = len)
    (xs : List α) : (xs.flatMap f).length = xs.length * len := by
  simp [List.length_flatMap, hLen]

/-- Element `q` of block `i` stands at `i * len + q` of the stream. -/
theorem getElem?_flatMap_blocks {α β : Type} {len : Nat} {f : α → List β} (hLen : ∀ x, (f x).length = len)
    {xs : List α} {i : Nat} {x : α} (hx : xs[i]? = some x) {q : Nat} (hq : q < len) :
    (xs.flatMap f)[i * len + q]? = (f x)[q]? := by
  induction xs generalizing i with
  | nil => simp at hx
  | cons y ys ih =>
    rw [List.flatMap_cons]
    cases i with
    | zero =>
      cases hx
      rw [Nat.zero_mul, Nat.zero_add, List.getElem?_append_left (by rw [hLen]; exact hq)]
    | succ i =>
      have hIndex : (i + 1) * len + q = (f y).length + (i * len + q) := by rw [hLen]; ring
      rw [hIndex, List.getElem?_append_right (Nat.le_add_right _ _), Nat.add_sub_cancel_left, ih hx]

/-- The stream of the blocks `0, ..., count - 1`, read with 0 past its end. -/
theorem getD_flatMap_range {len count i q : Nat} {f : Nat → List Bool} (hLen : ∀ x, (f x).length = len)
    (hi : i < count) (hq : q < len) :
    ((List.range count).flatMap f).getD (i * len + q) false = (f i).getD q false := by
  rw [List.getD_eq_getElem?_getD, getElem?_flatMap_blocks hLen (List.getElem?_range hi) hq,
    List.getD_eq_getElem?_getD]

theorem length_flatMap_range {len : Nat} {f : Nat → List Bool} (hLen : ∀ x, (f x).length = len)
    (count : Nat) : ((List.range count).flatMap f).length = count * len := by
  rw [length_flatMap_blocks hLen, List.length_range]

/-! ## Cutting a stream into blocks -/

/-- Block `i` of `len` bits of a stream, 0 past the stream's end (R57 to R59). -/
def blockAt (len : Nat) (stream : List Bool) (i : Nat) : List Bool :=
  (List.range len).map fun q => stream.getD (i * len + q) false

theorem blocks_eq_map_blockAt (len count : Nat) (stream : List Bool) :
    blocks len count stream = (List.range count).map (blockAt len stream) := rfl

@[simp] theorem length_blockAt (len : Nat) (stream : List Bool) (i : Nat) :
    (blockAt len stream i).length = len := by simp [blockAt]

theorem getElem?_blockAt {len q : Nat} (hq : q < len) (stream : List Bool) (i : Nat) :
    (blockAt len stream i)[q]? = some (stream.getD (i * len + q) false) := by
  simp [blockAt, List.getElem?_range hq]

theorem getD_blockAt {len q : Nat} (hq : q < len) (stream : List Bool) (i : Nat) :
    (blockAt len stream i).getD q false = stream.getD (i * len + q) false := by
  rw [List.getD_eq_getElem?_getD, getElem?_blockAt hq, Option.getD_some]

/-- Enough blocks hold the whole stream. -/
theorem take_flatMap_blockAt {len count : Nat} {stream : List Bool} (hEnough : stream.length ≤ count * len) :
    ((List.range count).flatMap (blockAt len stream)).take stream.length = stream := by
  refine List.ext_getElem? fun b => ?_
  rcases Nat.lt_or_ge b stream.length with hb | hb
  · have hPos : 0 < len := Nat.pos_of_ne_zero fun h => by
      rw [h, Nat.mul_zero] at hEnough; omega
    have hSplit : b / len * len + b % len = b := Nat.div_add_mod' b len
    have hBlock : b / len < count := (Nat.div_lt_iff_lt_mul hPos).mpr (hb.trans_le hEnough)
    have hBit : ((List.range count).flatMap (blockAt len stream))[b / len * len + b % len]? =
        some (stream.getD (b / len * len + b % len) false) := by
      rw [getElem?_flatMap_blocks (length_blockAt len stream) (List.getElem?_range hBlock)
        (Nat.mod_lt b hPos), getElem?_blockAt (Nat.mod_lt b hPos)]
    rw [hSplit] at hBit
    rw [List.getElem?_take_of_lt hb, hBit, List.getD_eq_getElem _ _ hb, List.getElem?_eq_getElem hb]
  · rw [List.getElem?_take_eq_none hb, List.getElem?_eq_none hb]

/-! ## Bytes (R56, R57) -/

@[simp] theorem length_bitsOfByte (b : Byte) : (bitsOfByte b).length = 8 := by simp [bitsOfByte]

theorem getElem?_bitsOfByte (b : Byte) {t : Nat} (ht : t < 8) :
    (bitsOfByte b)[t]? = some (b.getLsbD (7 - t)) := by
  simp [bitsOfByte, List.getElem?_range ht]

@[simp] theorem length_bitsOfBytes (bytes : List Byte) : (bitsOfBytes bytes).length = 8 * bytes.length := by
  rw [bitsOfBytes, length_flatMap_blocks length_bitsOfByte, Nat.mul_comm]

/-- `s[8j + t] = B[j][7 - t]` (R56). -/
theorem getElem?_bitsOfBytes {bytes : List Byte} {j t : Nat} {b : Byte} (hb : bytes[j]? = some b)
    (ht : t < 8) : (bitsOfBytes bytes)[j * 8 + t]? = some (b.getLsbD (7 - t)) := by
  rw [bitsOfBytes, getElem?_flatMap_blocks length_bitsOfByte hb ht, getElem?_bitsOfByte b ht]

theorem getD_bitsOfBytes {bytes : List Byte} {j t : Nat} {b : Byte} (hb : bytes[j]? = some b)
    (ht : t < 8) : (bitsOfBytes bytes).getD (j * 8 + t) false = b.getLsbD (7 - t) := by
  rw [List.getD_eq_getElem?_getD, getElem?_bitsOfBytes hb ht, Option.getD_some]

theorem byte_ext {a b : Byte} (h : ∀ t, t < 8 → a.getLsbD (7 - t) = b.getLsbD (7 - t)) : a = b :=
  BitVec.eq_of_getLsbD_eq fun i hi => by
    have := h (7 - i) (by omega)
    rwa [Nat.sub_sub_self (by omega)] at this

/-- The first `m` bits of a block written into a byte, most significant first. -/
theorem getLsbD_foldl_byte (block : List Bool) {m t : Nat} (hm : m ≤ 8) (ht : t < 8) :
    ((List.range m).foldl (fun (v : Byte) t =>
      if block.getD t false then v ||| (1#8 <<< (7 - t)) else v) 0).getLsbD (7 - t) =
      (decide (t < m) && block.getD t false) := by
  induction m with
  | zero => simp
  | succ m ih =>
    have hOne : (1#8 <<< (7 - m)).getLsbD (7 - t) = decide (t = m) := by
      rw [BitVec.getLsbD_shiftLeft, BitVec.getLsbD_one, Bool.eq_iff_iff]
      simp only [Bool.and_eq_true, Bool.not_eq_true', decide_eq_true_iff, decide_eq_false_iff_not]
      omega
    have hWrite : ∀ (v : Byte) (bit : Bool),
        (if bit then v ||| (1#8 <<< (7 - m)) else v).getLsbD (7 - t) =
          (v.getLsbD (7 - t) || (bit && decide (t = m))) := fun v bit => by
      cases bit <;> simp [hOne]
    rw [List.range_succ, List.foldl_append, List.foldl_cons, List.foldl_nil, hWrite, ih (by omega)]
    by_cases htm : t = m
    · subst htm; simp
    · have : t < m + 1 ↔ t < m := by omega
      simp [htm, this]

/-- `B[7 - t]` is the block's bit `t` (R57). -/
theorem getLsbD_byteOfBits (block : List Bool) {t : Nat} (ht : t < 8) :
    (byteOfBits block).getLsbD (7 - t) = block.getD t false := by
  rw [byteOfBits, getLsbD_foldl_byte block (le_refl 8) ht, decide_eq_true ht, Bool.true_and]

@[simp] theorem length_bytesOfBits (stream : List Bool) :
    (bytesOfBits stream).length = (stream.length + 7) / 8 := by
  simp [bytesOfBits, blocks_eq_map_blockAt]

/-- `B[j][7 - t] = s[8j + t]`, 0 beyond the stream (R57). -/
theorem getLsbD_of_getElem?_bytesOfBits {stream : List Bool} {j t : Nat} {b : Byte}
    (hb : (bytesOfBits stream)[j]? = some b) (ht : t < 8) :
    b.getLsbD (7 - t) = stream.getD (j * 8 + t) false := by
  have hByte : byteOfBits (blockAt 8 stream j) = b := by
    obtain ⟨hj, hb⟩ := List.getElem?_eq_some_iff.mp hb
    simpa [bytesOfBits, blocks_eq_map_blockAt] using hb
  rw [← hByte, getLsbD_byteOfBits _ ht, getD_blockAt ht]

/-- Packing adds 0 bits at the end, at most seven, and loses none (R57). -/
theorem getD_bitsOfBytes_bytesOfBits (stream : List Bool) (b : Nat) :
    (bitsOfBytes (bytesOfBits stream)).getD b false = stream.getD b false := by
  rcases Nat.lt_or_ge (b / 8) (bytesOfBits stream).length with hj | hj
  · have hByte := List.getElem?_eq_getElem hj
    have ht : b % 8 < 8 := Nat.mod_lt b (by decide)
    have hBit := (getD_bitsOfBytes hByte ht).trans (getLsbD_of_getElem?_bytesOfBits hByte ht)
    rwa [Nat.div_add_mod'] at hBit
  · have hLength := length_bytesOfBits stream
    rw [List.getD_eq_default, List.getD_eq_default]
    · omega
    · rw [length_bitsOfBytes]; omega

theorem bytesOfBits_bitsOfBytes (bytes : List Byte) : bytesOfBits (bitsOfBytes bytes) = bytes := by
  have hLength : (bytesOfBits (bitsOfBytes bytes)).length = bytes.length := by
    rw [length_bytesOfBits, length_bitsOfBytes]; omega
  refine List.ext_getElem hLength fun j h₁ h₂ => byte_ext fun t ht => ?_
  rw [getLsbD_of_getElem?_bytesOfBits (List.getElem?_eq_getElem h₁) ht,
    getD_bitsOfBytes (List.getElem?_eq_getElem h₂) ht]

/-- Settles O52: the rules of R56 and R57, bit by bit. -/
theorem bytesAndBitStreams : Obligations.BytesAndBitStreams := by
  refine ⟨fun B => ⟨length_bitsOfBytes B, ?_, bytesOfBits_bitsOfBytes B⟩,
    fun s => ⟨length_bytesOfBits s, ?_⟩⟩
  · intro j b t hb ht
    rw [Nat.mul_comm, getElem?_bitsOfBytes hb ht]
  · intro j b t hb ht
    rw [Nat.mul_comm, getLsbD_of_getElem?_bytesOfBits hb ht]

/-! ## Blocks on the bus (R41, R42) -/

/-- A block drives no bit of the bus above its length. -/
theorem getLsbD_busOf_of_ge {bits : List Bool} {i : Nat} (hi : bits.length ≤ i) :
    (busOf bits).getLsbD i = false := by
  rcases Nat.lt_or_ge i 64 with h64 | h64
  · rw [getLsbD_busOf _ _ h64, List.getD_eq_default _ _ hi]
  · exact BitVec.getLsbD_of_ge _ _ h64

theorem lowBits_eq_self {len : Nat} {v : Bus} (h : ∀ i, len ≤ i → v.getLsbD i = false) :
    lowBits len v = v := by
  refine bus_ext fun i => ?_
  rw [getLsbD_lowBits]
  rcases Nat.lt_or_ge i len with hi | hi
  · rw [decide_eq_true hi, Bool.true_and]
  · rw [h i hi, Bool.and_false]

theorem lowBits_busOf (bits : List Bool) : lowBits bits.length (busOf bits) = busOf bits :=
  lowBits_eq_self fun _ => getLsbD_busOf_of_ge

theorem bitsOf_busOf {bits : List Bool} (h : bits.length ≤ 64) : bitsOf bits.length (busOf bits) = bits := by
  refine List.ext_getElem (bitsOf_length _ _) fun i h₁ h₂ => ?_
  simp [bitsOf, getLsbD_busOf bits i (h₂.trans_le h), h₂]

theorem getD_bitsOf {len q : Nat} (hq : q < len) (v : Bus) : (bitsOf len v).getD q false = v.getLsbD q := by
  simp [bitsOf, hq]

end Sys2Proof.Machine
end

section
/-! What the core answers to the byte driver's commands, one after the other or under any plan (R50, R55,
R62). -/

namespace Sys2Proof.Machine

/-! ## One command -/

/-- A ready codec that can hold data has `r` in `2..6` (R22, R55). -/
theorem Codec.r_bounds {c : Codec} {s : State} (hReady : c.Ready s) (hk : 1 ≤ c.k) : 2 ≤ c.r ∧ c.r ≤ 6 := by
  cases c with
  | general r =>
    obtain ⟨hLegal, hValid, hR⟩ := hReady r rfl
    obtain ⟨hPos, hMax⟩ := hLegal hValid
    have h6 := (RMax_bounds s.rMax).2
    have hOne : r ≠ 1 := fun h => by subst h; exact absurd hk (by decide)
    change 2 ≤ r ∧ r ≤ 6
    omega
  | hamming74 => exact ⟨by decide, by decide⟩
  | hamming1511 => exact ⟨by decide, by decide⟩

/-- The response to an `ENC.*` command of the codec (R128, R153, R157). -/
def Codec.encodeAnswer (c : Codec) (cmd : Command) : Response :=
  ⟨.ok, hammingEncode c.r (lowBits c.k cmd.din), 0⟩

/-- The response to a `DEC.*` command of the codec (R129, R154, R158). -/
def Codec.decodeAnswer (c : Codec) (cmd : Command) : Response :=
  decodeResponse c.r (lowBits c.n cmd.din)

theorem exec_encodeInstr {c : Codec} {s : State} (hReady : c.Ready s) :
    exec c.encodeInstr s =
      .next { s with response := some (c.encodeAnswer ⟨encode c.encodeInstr, s.din⟩) } := by
  cases c with
  | general r =>
    obtain ⟨-, hValid, hR⟩ := hReady r rfl
    exact exec_encG_of_configured hValid hR
  | hamming74 => exact encodeBlock_of_length hamming74R s
  | hamming1511 => exact encodeBlock_of_length hamming1511R s

theorem exec_decodeInstr {c : Codec} {s : State} (hReady : c.Ready s) :
    exec c.decodeInstr s =
      .next { s with response := some (c.decodeAnswer ⟨encode c.decodeInstr, s.din⟩) } := by
  cases c with
  | general r =>
    obtain ⟨-, hValid, hR⟩ := hReady r rfl
    exact exec_decG_of_configured hValid hR
  | hamming74 => exact decodeBlock_of_length hamming74R s
  | hamming1511 => exact decodeBlock_of_length hamming1511R s

theorem wf_encodeInstr {c : Codec} (hr : c.r ≤ 6) : c.encodeInstr.wf = true := by
  cases c with
  | general r => exact wf_encG_dataLength hr
  | hamming74 => rfl
  | hamming1511 => rfl

theorem wf_decodeInstr {c : Codec} (hr : c.r ≤ 6) : c.decodeInstr.wf = true := by
  cases c with
  | general r => exact wf_decG_codeLength hr
  | hamming74 => rfl
  | hamming1511 => rfl

theorem decodeResponse_isError (r : Nat) (w : Bus) : (decodeResponse r w).status.isError = false := by
  unfold decodeResponse
  split <;> rfl

/-- The state after a command of the driver's that changed the response only: what other hosts have
pending is still pending. -/
def served (cmd : Command) (rsp : Response) (s : State) : State :=
  { accept cmd s.pending s with response := some rsp }

/-- The core answers the driver's command `cmd` with `rsp` whenever the codec is ready. -/
def Codec.Answers (c : Codec) (cmd : Command) (rsp : Response) : Prop :=
  ∀ s, c.Ready s → issue cmd s = .ok (rsp, served cmd rsp s)

/-- `issue` reads the response of the step it causes, unless that is an error. -/
theorem issue_of_exec {cmd : Command} {i : Instr} {rsp : Response} {s : State}
    (hDecode : decode cmd.cmd = .ok i) (hNoError : rsp.status.isError = false)
    (hExec : exec i (accept cmd s.pending s) = .next (served cmd rsp s)) :
    issue cmd s = .ok (rsp, served cmd rsp s) :=
  issue_ok.mpr ⟨(step_of_command (presentFirst_pending cmd s)).trans ((runWord_of_ok hDecode _).trans hExec),
    rfl, hNoError⟩

theorem answers_encode {c : Codec} (hr : c.r ≤ 6) (d : Bus) :
    c.Answers ⟨encode c.encodeInstr, d⟩ (c.encodeAnswer ⟨encode c.encodeInstr, d⟩) := fun s hReady =>
  have hAccepted : c.Ready (accept ⟨encode c.encodeInstr, d⟩ s.pending s) := hReady
  issue_of_exec (decode_encode (wf_encodeInstr hr)) rfl (exec_encodeInstr hAccepted)

theorem answers_decode {c : Codec} (hr : c.r ≤ 6) (d : Bus) :
    c.Answers ⟨encode c.decodeInstr, d⟩ (c.decodeAnswer ⟨encode c.decodeInstr, d⟩) := fun s hReady =>
  have hAccepted : c.Ready (accept ⟨encode c.decodeInstr, d⟩ s.pending s) := hReady
  issue_of_exec (decode_encode (wf_decodeInstr hr)) (decodeResponse_isError _ _)
    (exec_decodeInstr hAccepted)

theorem served_ready {c : Codec} {s : State} (hReady : c.Ready s) (cmd : Command) (rsp : Response) :
    c.Ready (served cmd rsp s) := hReady

theorem served_undisturbed {c : Codec} {s : State} (hQuiet : c.Undisturbed s) (cmd : Command)
    (rsp : Response) : c.Undisturbed (served cmd rsp s) := hQuiet

/-! ## Commands in chunk order -/

theorem issueAll_cons {cmd : Command} {cs : List Command} {s t u : State} {r : Response}
    {rs : List Response} (hIssue : issue cmd s = .ok (r, t)) (hRest : issueAll cs t = .ok (rs, u)) :
    issueAll (cmd :: cs) s = .ok (r :: rs, u) := by
  simp only [issueAll, hIssue, hRest, bind, Except.bind, pure, Except.pure]

theorem issueAll_answers {c : Codec} {answer : Command → Response} {cs : List Command}
    (hAnswers : ∀ cmd ∈ cs, c.Answers cmd (answer cmd)) {s : State} (hReady : c.Ready s) :
    ∃ t, c.Ready t ∧ issueAll cs s = .ok (cs.map answer, t) := by
  induction cs generalizing s with
  | nil => exact ⟨s, hReady, rfl⟩
  | cons cmd cs ih =>
    have hIssue := hAnswers cmd List.mem_cons_self s hReady
    obtain ⟨t, hReady', hRest⟩ := ih (fun d hd => hAnswers d (List.mem_cons_of_mem cmd hd))
      (served_ready hReady cmd (answer cmd))
    exact ⟨t, hReady', issueAll_cons hIssue hRest⟩

/-! ## Other hosts' presentations (R50) -/

/-- Every step goes on (R197). -/
theorem step_goes (s : State) : ∃ t, step s = .next t := by
  obtain ⟨-, h⟩ | ⟨c, rest, after, -, h⟩ | ⟨rest, -, h⟩ | ⟨c, rest, -, h⟩ := step_cases s
  · exact ⟨_, h⟩
  · obtain ⟨rsp, hRun⟩ | ⟨r, -, -, -, hRun⟩ := runWord_cases c.cmd (accept c after s) <;>
      exact ⟨_, h.trans hRun⟩
  · exact ⟨_, h⟩
  · exact ⟨_, h⟩

/-- A command that keeps the general codec's configuration: it is no `CFG`, or one that fails, or one with
the same `r` (R62). -/
theorem runWord_ready {r : Nat} {w : Word} {s : State} (hReady : (Codec.general r).Ready s)
    (hKeeps : ∀ r', decode w = .ok (.cfg r') → r' = r ∨ r' = 0 ∨ s.rMax.toNat < r') :
    ∃ t, runWord w s = .next t ∧ (Codec.general r).Ready t ∧ t.pending = s.pending ∧ t.rMax = s.rMax := by
  obtain ⟨rsp, h⟩ | ⟨r', hDecode, hPos, hMax, h⟩ := runWord_cases w s
  · exact ⟨_, h, hReady, rfl, rfl⟩
  · refine ⟨_, h, ?_, rfl, rfl⟩
    have hSame : r' = r := by
      have := hKeeps r' hDecode
      omega
    subst hSame
    rintro _ ⟨⟩
    exact ⟨writeConfig_legalConfig hPos hMax, rfl, toNat_cfgR_of_le hMax⟩

/-- A step of the core that serves others leaves the codec ready and undisturbed. -/
theorem step_undisturbed {c : Codec} {s : State} (hReady : c.Ready s) (hQuiet : c.Undisturbed s) :
    ∃ t, step s = .next t ∧ c.Ready t ∧ c.Undisturbed t := by
  obtain ⟨t, hStep⟩ := step_goes s
  cases c with
  | hamming74 => exact ⟨t, hStep, nofun, nofun⟩
  | hamming1511 => exact ⟨t, hStep, nofun, nofun⟩
  | general r =>
    match hPending : s.pending with
    | [] => exact ⟨idle s, step_of_idle hPending, hReady, hQuiet⟩
    | e :: rest =>
      have hEvents := hQuiet r rfl
      rw [hPending] at hEvents
      obtain ⟨cmd, rfl, hKeeps⟩ := hEvents e List.mem_cons_self
      have hAccepted : (Codec.general r).Ready (accept cmd rest s) := hReady
      obtain ⟨u, hRun, hReady', hRest, hMax⟩ := runWord_ready hAccepted hKeeps
      refine ⟨u, (step_of_command hPending).trans hRun, hReady', ?_⟩
      rintro _ ⟨⟩ e' he'
      rw [hRest] at he'
      rw [hMax]
      exact hEvents e' (List.mem_cons_of_mem _ he')

theorem letPass_undisturbed {c : Codec} {s : State} (hReady : c.Ready s) (hQuiet : c.Undisturbed s) :
    ∃ t, letPass s = .ok t ∧ c.Ready t ∧ c.Undisturbed t := by
  obtain ⟨t, hStep, hReady', hQuiet'⟩ := step_undisturbed hReady hQuiet
  obtain ⟨u, hStep', hReady'', hQuiet''⟩ := step_undisturbed hReady' hQuiet'
  have hLet : letPass s = if t.pending.length < s.pending.length then pure t else stepOn t := by
    rw [letPass, stepOn_ok.mpr hStep]
    rfl
  rw [hLet]
  split
  · exact ⟨t, rfl, hReady', hQuiet'⟩
  · exact ⟨u, stepOn_ok.mpr hStep', hReady'', hQuiet''⟩

theorem letPassMany_undisturbed {c : Codec} (k : Nat) {s : State} (hReady : c.Ready s)
    (hQuiet : c.Undisturbed s) : ∃ t, letPassMany k s = .ok t ∧ c.Ready t ∧ c.Undisturbed t := by
  induction k generalizing s with
  | zero => exact ⟨s, rfl, hReady, hQuiet⟩
  | succ k ih =>
    obtain ⟨t, hLet, hReady', hQuiet'⟩ := letPass_undisturbed hReady hQuiet
    obtain ⟨u, hMany, hKept⟩ := ih hReady' hQuiet'
    refine ⟨u, ?_, hKept⟩
    rw [letPassMany, hLet]
    exact hMany

/-! ## Commands under a plan (R62) -/

theorem issuePlanned_cons {slot : Slot} {plan : List Slot} {cs : List Command} {s t u v : State}
    {cmd : Command} {r : Response} {rs : List (Nat × Response)} (hBlock : cs[slot.block]? = some cmd)
    (hLet : letPassMany slot.ahead s = .ok t) (hIssue : issue cmd t = .ok (r, u))
    (hRest : issuePlanned plan cs u = .ok (rs, v)) :
    issuePlanned (slot :: plan) cs s = .ok ((slot.block, r) :: rs, v) := by
  simp only [issuePlanned, hBlock, hLet, hIssue, hRest, bind, Except.bind, pure, Except.pure]

/-- Under any plan over the existing blocks each block gets the response its command gets alone. -/
theorem issuePlanned_answers {c : Codec} {answer : Command → Response} {cs : List Command}
    (hAnswers : ∀ cmd ∈ cs, c.Answers cmd (answer cmd)) {plan : List Slot}
    (hPlan : ∀ slot ∈ plan, slot.block < cs.length) {s : State} (hReady : c.Ready s)
    (hQuiet : c.Undisturbed s) :
    ∃ rs t, issuePlanned plan cs s = .ok (rs, t) ∧ rs.map Prod.fst = plan.map (·.block) ∧
      ∀ x ∈ rs, (cs.map answer)[x.1]? = some x.2 := by
  induction plan generalizing s with
  | nil => exact ⟨[], s, rfl, rfl, nofun⟩
  | cons slot plan ih =>
    have hGet := List.getElem?_eq_getElem (hPlan slot List.mem_cons_self)
    obtain ⟨t, hLet, hReady', hQuiet'⟩ := letPassMany_undisturbed slot.ahead hReady hQuiet
    have hIssue := hAnswers _ (List.mem_of_getElem? hGet) t hReady'
    obtain ⟨rs, u, hRest, hBlocks, hResponses⟩ := ih (fun x hx => hPlan x (List.mem_cons_of_mem slot hx))
      (served_ready hReady' _ _) (served_undisturbed hQuiet' _ _)
    refine ⟨_, u, issuePlanned_cons hGet hLet hIssue hRest, ?_, ?_⟩
    · rw [List.map_cons, List.map_cons, hBlocks]
    · intro x hx
      rcases List.mem_cons.mp hx with rfl | hx
      · rw [List.getElem?_map, hGet]; rfl
      · exact hResponses x hx

/-- A block the plan issued has its response among the collected ones. -/
theorem responseOfBlock_of_collected {rs : List (Nat × Response)} {out : List Response} {i : Nat}
    {r : Response} (hIssued : i ∈ rs.map Prod.fst) (hResponses : ∀ x ∈ rs, out[x.1]? = some x.2)
    (hr : out[i]? = some r) : responseOfBlock rs i = .ok r := by
  obtain ⟨y, hy, hi⟩ := List.mem_map.mp hIssued
  have hFound : (rs.find? fun x => x.1 == i).isSome = true :=
    List.find?_isSome.mpr ⟨y, hy, beq_iff_eq.mpr hi⟩
  obtain ⟨x, hx⟩ := Option.isSome_iff_exists.mp hFound
  have hxi : x.1 = i := by simpa using List.find?_some hx
  have hSame := hResponses x (List.mem_of_find?_eq_some hx)
  rw [hxi, hr] at hSame
  cases hSame
  rw [responseOfBlock, hx]

theorem inBlockOrder_of_collected {rs : List (Nat × Response)} {out : List Response}
    (hResponses : ∀ x ∈ rs, out[x.1]? = some x.2) {count : Nat} (hCount : count ≤ out.length)
    (hIssued : ∀ i, i < count → i ∈ rs.map Prod.fst) : inBlockOrder rs count = .ok (out.take count) := by
  induction count with
  | zero => rw [List.take_zero]; rfl
  | succ n ih =>
    have hBefore := ih (by omega) fun i hi => hIssued i (by omega)
    have hLast := List.getElem?_eq_getElem (l := out) (i := n) (by omega)
    have hResponse := responseOfBlock_of_collected (hIssued n (by omega)) hResponses hLast
    simp only [inBlockOrder, hBefore, hResponse, bind, Except.bind, pure, Except.pure,
      List.take_concat_get']

/-- A plan that issues each block once collects the responses of chunk order (R62). -/
theorem issueInPlan_answers {c : Codec} {answer : Command → Response} {cs : List Command}
    (hAnswers : ∀ cmd ∈ cs, c.Answers cmd (answer cmd)) {plan : List Slot}
    (hPlan : IssuesEachBlockOnce plan cs.length) {s : State} (hReady : c.Ready s)
    (hQuiet : c.Undisturbed s) : ∃ t, issueInPlan plan cs s = .ok (cs.map answer, t) := by
  have hBlock : ∀ i, i ∈ plan.map (·.block) ↔ i < cs.length := fun i => by
    rw [hPlan.mem_iff, List.mem_range]
  obtain ⟨rs, t, hIssue, hBlocks, hResponses⟩ := issuePlanned_answers hAnswers
    (fun slot hSlot => (hBlock _).mp (List.mem_map_of_mem hSlot)) hReady hQuiet
  have hOrder := inBlockOrder_of_collected hResponses (List.length_map answer).ge fun i hi => by
    rw [hBlocks]; exact (hBlock i).mpr hi
  rw [List.take_of_length_le (List.length_map answer).le] at hOrder
  exact ⟨t, by simp only [issueInPlan, hIssue, hOrder, bind, Except.bind, pure, Except.pure]⟩

end Sys2Proof.Machine
end

section
/-! Proofs about the host's byte driver (R55 to R63). -/

namespace Sys2Proof.Machine

/-! ## encode_bytes (R58) -/

/-- `ceil(L / k)` chunks (R58). -/
def Codec.chunkCount (c : Codec) (input : List Byte) : Nat := (8 * input.length + c.k - 1) / c.k

/-- Chunk `i` on the bus, zero-padded to `k` bits (R58). -/
def Codec.chunk (c : Codec) (input : List Byte) (i : Nat) : Bus :=
  busOf (blockAt c.k (bitsOfBytes input) i)

/-- The codeword of chunk `i` (R58). -/
def Codec.codeword (c : Codec) (input : List Byte) (i : Nat) : Bus := hammingEncode c.r (c.chunk input i)

/-- The codewords in chunk order, not aligned to bytes (R58). -/
def Codec.codewordStream (c : Codec) (input : List Byte) : List Bool :=
  (List.range (c.chunkCount input)).flatMap fun i => bitsOf c.n (c.codeword input i)

theorem encodeCommands_eq (c : Codec) (input : List Byte) :
    encodeCommands c input =
      (List.range (c.chunkCount input)).map fun i => ⟨encode c.encodeInstr, c.chunk input i⟩ := by
  rw [encodeCommands, length_bitsOfBytes, blocks_eq_map_blockAt, List.map_map]
  rfl

theorem lowBits_chunk (c : Codec) (input : List Byte) (i : Nat) :
    lowBits c.k (c.chunk input i) = c.chunk input i := by
  have h := lowBits_busOf (blockAt c.k (bitsOfBytes input) i)
  rwa [length_blockAt] at h

/-- The core answers every command of `encode_bytes` with its chunk's codeword. -/
theorem encodeCommands_answers {c : Codec} (hr : c.r ≤ 6) (input : List Byte) :
    ∀ cmd ∈ encodeCommands c input, c.Answers cmd (c.encodeAnswer cmd) := by
  rw [encodeCommands_eq]
  intro cmd hMem
  obtain ⟨i, -, rfl⟩ := List.mem_map.mp hMem
  exact answers_encode hr _

theorem encodedOf_eq (c : Codec) (input : List Byte) :
    encodedOf c input ((encodeCommands c input).map c.encodeAnswer) =
      ⟨bytesOfBits (c.codewordStream input), padCount c.k (8 * input.length)⟩ := by
  have hStream : ((encodeCommands c input).map c.encodeAnswer).flatMap (fun rsp => bitsOf c.n rsp.dout) =
      c.codewordStream input := by
    rw [encodeCommands_eq, List.map_map, List.flatMap_map]
    refine congrArg (List.flatMap · _) (funext fun i => ?_)
    simp only [Function.comp, Codec.encodeAnswer, lowBits_chunk, Codec.codeword]
  rw [encodedOf, hStream, length_bitsOfBytes]

theorem encodeBytes_of_answers {c : Codec} {input : List Byte} {s t : State} {rs : List Response}
    (hk : 1 ≤ c.k) (hIssue : issueAll (encodeCommands c input) s = .ok (rs, t)) :
    encodeBytes c input s = .ok (encodedOf c input rs, t) := by
  rw [encodeBytes, if_neg (by omega), hIssue]
  rfl

/-- `encode_bytes` returns the packed codewords and the padding count, and leaves the codec ready. -/
theorem encodeBytes_ok {c : Codec} {s : State} (hReady : c.Ready s) (hk : 1 ≤ c.k) (input : List Byte) :
    ∃ t, c.Ready t ∧ encodeBytes c input s =
      .ok (⟨bytesOfBits (c.codewordStream input), padCount c.k (8 * input.length)⟩, t) := by
  have hr := (Codec.r_bounds hReady hk).2
  obtain ⟨t, hReady', hIssue⟩ := issueAll_answers (encodeCommands_answers hr input) hReady
  exact ⟨t, hReady', by rw [encodeBytes_of_answers hk hIssue, encodedOf_eq]⟩

theorem length_codewordStream (c : Codec) (input : List Byte) :
    (c.codewordStream input).length = c.chunkCount input * c.n :=
  length_flatMap_range (fun _ => bitsOf_length c.n _) _

/-- "codeword `c` starts at output stream bit `c*n`" (R58). -/
theorem getD_codewordStream {c : Codec} {input : List Byte} {i q : Nat} (hi : i < c.chunkCount input)
    (hq : q < c.n) :
    (c.codewordStream input).getD (i * c.n + q) false = (c.codeword input i).getLsbD q := by
  rw [Codec.codewordStream, getD_flatMap_range (fun _ => bitsOf_length c.n _) hi hq, getD_bitsOf hq]

/-- Settles O53: `encodeBytes_ok` names the output; its bits are the packed codeword stream's. -/
theorem encodeBytesResult : Obligations.EncodeBytesResult := by
  intro c s input hReady hk
  obtain ⟨t, -, hEncode⟩ := encodeBytes_ok hReady hk input
  refine ⟨_, t, hEncode, rfl, ?_, ?_, ?_⟩
  · rw [length_bytesOfBits, length_codewordStream]
    rfl
  · intro i p hi hp1 hpn
    rw [getD_bitsOfBytes_bytesOfBits, getD_codewordStream hi (by omega)]
    rfl
  · intro b hb
    rw [getD_bitsOfBytes_bytesOfBits, List.getD_eq_default]
    rw [length_codewordStream]
    exact hb

/-! ## decode_bytes (R59, R60) -/

/-- `floor(E / n)` codewords (R59). -/
def Codec.wordCount (c : Codec) (input : List Byte) : Nat := 8 * input.length / c.n

/-- Received codeword `i` on the bus (R59). -/
def Codec.word (c : Codec) (input : List Byte) (i : Nat) : Bus :=
  busOf (blockAt c.n (bitsOfBytes input) i)

/-- The data of the corrected codewords, codewords in order (R59). -/
def Codec.dataStream (c : Codec) (input : List Byte) : List Bool :=
  (List.range (c.wordCount input)).flatMap fun i =>
    bitsOf c.k (extract c.r (correctedWord c.r (c.word input i)))

/-- The pair `(c, SYN)` of each codeword with a syndrome, in codeword order (R60). -/
def Codec.corrections (c : Codec) (input : List Byte) : List (Nat × Nat) :=
  (List.range (c.wordCount input)).filterMap fun i =>
    if syndrome c.r (c.word input i) = 0 then none else some (i, syndrome c.r (c.word input i))

theorem decodeCommands_eq (c : Codec) (input : List Byte) :
    decodeCommands c input =
      (List.range (c.wordCount input)).map fun i => ⟨encode c.decodeInstr, c.word input i⟩ := by
  rw [decodeCommands, length_bitsOfBytes, blocks_eq_map_blockAt, List.map_map]
  rfl

theorem lowBits_word (c : Codec) (input : List Byte) (i : Nat) :
    lowBits c.n (c.word input i) = c.word input i := by
  have h := lowBits_busOf (blockAt c.n (bitsOfBytes input) i)
  rwa [length_blockAt] at h

theorem decodeCommands_answers {c : Codec} (hr : c.r ≤ 6) (input : List Byte) :
    ∀ cmd ∈ decodeCommands c input, c.Answers cmd (c.decodeAnswer cmd) := by
  rw [decodeCommands_eq]
  intro cmd hMem
  obtain ⟨i, -, rfl⟩ := List.mem_map.mp hMem
  exact answers_decode hr _

/-- The responses to the commands of `decode_bytes`, in codeword order. -/
theorem decodeCommands_map_answer (c : Codec) (input : List Byte) :
    (decodeCommands c input).map c.decodeAnswer =
      (List.range (c.wordCount input)).map fun i => decodeResponse c.r (c.word input i) := by
  rw [decodeCommands_eq, List.map_map]
  refine congrArg (List.map · _) (funext fun i => ?_)
  simp only [Function.comp, Codec.decodeAnswer, lowBits_word]

theorem decodeResponse_dout (r : Nat) (w : Bus) : (decodeResponse r w).dout = extract r (correctedWord r w) := by
  unfold decodeResponse correctedWord
  split <;> rfl

/-- `SYN` reports the syndrome whole: seven bits hold it (R60, R126). -/
theorem decodeResponse_correction {r : Nat} (hr : r ≤ 6) (w : Bus) (i : Nat) :
    (if (decodeResponse r w).status = .corrected then some (i, (decodeResponse r w).syn.toNat) else none) =
      if syndrome r w = 0 then none else some (i, syndrome r w) := by
  unfold decodeResponse
  split
  · rfl
  · have hLt : syndrome r w < 2 ^ 7 :=
      (syndrome_lt r w).trans (Nat.pow_lt_pow_right (by decide) (by omega))
    simpa [Nat.mod_eq_of_lt] using hLt

theorem zipIdx_map_range {α : Type} (f : Nat → α) (count : Nat) :
    ((List.range count).map f).zipIdx = (List.range count).map fun i => (f i, i) :=
  List.ext_getElem (by simp) fun i h₁ h₂ => by simp

theorem correctionsOf_eq {c : Codec} (hr : c.r ≤ 6) (input : List Byte) :
    correctionsOf ((decodeCommands c input).map c.decodeAnswer) = c.corrections input := by
  rw [correctionsOf, decodeCommands_map_answer, zipIdx_map_range, List.filterMap_map]
  exact congrArg (List.filterMap · _) (funext fun i => decodeResponse_correction hr _ i)

theorem decodedOf_eq {c : Codec} (hr : c.r ≤ 6) (input : List Byte) (l : Option Nat) :
    decodedOf c l ((decodeCommands c input).map c.decodeAnswer) =
      (truncateTo l (c.dataStream input)).map fun data => ⟨bytesOfBits data, c.corrections input⟩ := by
  have hData : ((decodeCommands c input).map c.decodeAnswer).flatMap (fun rsp => bitsOf c.k rsp.dout) =
      c.dataStream input := by
    rw [decodeCommands_map_answer, List.flatMap_map]
    simp only [decodeResponse_dout]
    rfl
  rw [decodedOf, hData, correctionsOf_eq hr]
  cases truncateTo l (c.dataStream input) <;> rfl

theorem decodeBytes_of_answers {c : Codec} {input : List Byte} {s t : State} {rs : List Response}
    (hk : 1 ≤ c.k) (hIssue : issueAll (decodeCommands c input) s = .ok (rs, t)) (l : Option Nat) :
    decodeBytes c input l s = (decodedOf c l rs).map fun d => (d, t) := by
  rw [decodeBytes, if_neg (by omega), hIssue]
  change (decodedOf c l rs >>= _) = _
  cases decodedOf c l rs <;> rfl

/-- `decode_bytes` returns the packed data, truncated, and the corrections, or refuses the length. -/
theorem decodeBytes_eq {c : Codec} {s : State} (hReady : c.Ready s) (hk : 1 ≤ c.k) (input : List Byte) :
    ∃ t, ∀ l, decodeBytes c input l s =
      (truncateTo l (c.dataStream input)).map fun data =>
        (⟨bytesOfBits data, c.corrections input⟩, t) := by
  have hr := (Codec.r_bounds hReady hk).2
  obtain ⟨t, -, hIssue⟩ := issueAll_answers (decodeCommands_answers hr input) hReady
  refine ⟨t, fun l => ?_⟩
  rw [decodeBytes_of_answers hk hIssue, decodedOf_eq hr]
  cases truncateTo l (c.dataStream input) <;> rfl

theorem length_dataStream (c : Codec) (input : List Byte) :
    (c.dataStream input).length = c.wordCount input * c.k :=
  length_flatMap_range (fun _ => bitsOf_length c.k _) _

theorem truncateTo_of_le {l : Nat} {data : List Bool} (h : l ≤ data.length) :
    truncateTo (some l) data = .ok (data.take l) := if_neg (Nat.not_lt.mpr h)

theorem truncateTo_of_gt {l : Nat} {data : List Bool} (h : data.length < l) :
    truncateTo (some l) data = .error .invalidInput := if_pos h

/-- Settles O54, by the three cases of the length (R59). -/
theorem decodeBytesResult : Obligations.DecodeBytesResult := by
  intro c s input hReady hk
  obtain ⟨t, hDecode⟩ := decodeBytes_eq hReady hk input
  refine ⟨⟨t, hDecode none⟩, fun l hl => ⟨t, ?_⟩, fun l hl => ?_⟩
  · rw [hDecode, truncateTo_of_le (by rw [length_dataStream]; exact hl)]
    rfl
  · rw [hDecode, truncateTo_of_gt (by rw [length_dataStream]; exact hl)]
    rfl

/-! ## decode_bytes after encode_bytes (R61, R63) -/

/-- "so no extra codeword is decoded" (R61): the bits that pad the last byte are fewer than `n`. -/
theorem padding_holds_no_codeword {r : Nat} (h2 : 2 ≤ r) (h6 : r ≤ 6) (m : Nat) :
    8 * (((8 * m + dataLength r - 1) / dataLength r * codeLength r + 7) / 8) / codeLength r =
      (8 * m + dataLength r - 1) / dataLength r := by
  interval_cases r <;> simp only [dataLength, codeLength] <;> omega

theorem wordCount_of_length {c : Codec} {s : State} (hReady : c.Ready s) (hk : 1 ≤ c.k)
    {input received : List Byte}
    (hLength : received.length = (bytesOfBits (c.codewordStream input)).length) :
    c.wordCount received = c.chunkCount input := by
  obtain ⟨h2, h6⟩ := Codec.r_bounds hReady hk
  rw [Codec.wordCount, hLength, length_bytesOfBits, length_codewordStream]
  exact padding_holds_no_codeword h2 h6 input.length

theorem Codec.n_le_63 {c : Codec} (hr : c.r ≤ 6) : c.n ≤ 63 := codeLength_le_63 hr

/-- The codeword received at block `i` is the word whose bits stand there. -/
theorem word_eq {c : Codec} (hr : c.r ≤ 6) {received : List Byte} {i : Nat} {w : Bus}
    (hBits : ∀ q, q < c.n → (bitsOfBytes received).getD (i * c.n + q) false = w.getLsbD q)
    (hAbove : ∀ q, c.n ≤ q → w.getLsbD q = false) : c.word received i = w := by
  refine bus_ext fun q => ?_
  rcases Nat.lt_or_ge q c.n with hq | hq
  · have := Codec.n_le_63 hr
    rw [Codec.word, getLsbD_busOf _ q (by omega), getD_blockAt hq, hBits q hq]
  · rw [hAbove q hq]
    exact getLsbD_busOf_of_ge (by rwa [length_blockAt])

theorem getLsbD_codeword_of_ge {c : Codec} (input : List Byte) (i : Nat) {q : Nat} (hq : c.n ≤ q) :
    (c.codeword input i).getLsbD q = false := getLsbD_hammingEncode_of_ge hq _

/-- What `decode_bytes` cuts from the output of `encode_bytes` are its codewords (R61). -/
theorem word_bytesOfBits_codewordStream {c : Codec} (hr : c.r ≤ 6) {input : List Byte} {i : Nat}
    (hi : i < c.chunkCount input) :
    c.word (bytesOfBits (c.codewordStream input)) i = c.codeword input i :=
  word_eq hr (fun q hq => by rw [getD_bitsOfBytes_bytesOfBits, getD_codewordStream hi hq])
    fun _ => getLsbD_codeword_of_ge input i

/-- The chunks hold all of the input. -/
theorem length_le_chunkCount_mul {c : Codec} (hk : 1 ≤ c.k) (input : List Byte) :
    8 * input.length ≤ c.chunkCount input * c.k := by
  have hCeil : 8 * input.length + c.k - 1 < (c.chunkCount input + 1) * c.k :=
    Nat.lt_mul_of_div_lt (Nat.lt_succ_self _) hk
  rw [Nat.add_mul, Nat.one_mul] at hCeil
  omega

/-- Codewords that decode to the chunks give back the input (R63), with what was corrected on the way. -/
theorem decodeBytes_of_corrected {c : Codec} {s : State} (hReady : c.Ready s) (hk : 1 ≤ c.k)
    {input received : List Byte} (hCount : c.wordCount received = c.chunkCount input)
    (hWords : ∀ i, i < c.chunkCount input →
      correctedWord c.r (c.word received i) = c.codeword input i) :
    ∃ t, decodeBytes c received (some (8 * input.length)) s =
      .ok (⟨input, c.corrections received⟩, t) := by
  have hr := (Codec.r_bounds hReady hk).2
  have hChunk : ∀ i, i < c.chunkCount input →
      bitsOf c.k (extract c.r (correctedWord c.r (c.word received i))) =
        blockAt c.k (bitsOfBytes input) i := fun i hi => by
    have h64 : (blockAt c.k (bitsOfBytes input) i).length ≤ 64 := by
      have := Codec.n_le_63 hr
      have : c.k ≤ c.n := dataLength_le_codeLength c.r
      rw [length_blockAt]; omega
    have hBlock := bitsOf_busOf h64
    rw [length_blockAt] at hBlock
    rw [hWords i hi, Codec.codeword, extract_hammingEncode hr]
    exact (congrArg _ (lowBits_chunk c input i)).trans hBlock
  have hData : c.dataStream received =
      (List.range (c.chunkCount input)).flatMap (blockAt c.k (bitsOfBytes input)) := by
    rw [Codec.dataStream, hCount]
    exact List.flatMap_congr fun i hi => hChunk i (List.mem_range.mp hi)
  have hEnough : 8 * input.length ≤ c.chunkCount input * c.k := length_le_chunkCount_mul hk input
  have hTake := take_flatMap_blockAt ((length_bitsOfBytes input).le.trans hEnough)
  rw [length_bitsOfBytes] at hTake
  obtain ⟨t, hDecode⟩ := decodeBytes_eq hReady hk received
  refine ⟨t, ?_⟩
  rw [hDecode, truncateTo_of_le (by rw [length_dataStream, hCount]; exact hEnough), hData, hTake]
  simp only [Except.map, bytesOfBits_bitsOfBytes]

/-- Settles O55: every codeword comes back as it was sent, so none is corrected. -/
theorem bufferRoundTrip : Obligations.BufferRoundTrip := by
  intro c s bytes hReady hk
  have hr := (Codec.r_bounds hReady hk).2
  obtain ⟨t, hReady', hEncode⟩ := encodeBytes_ok hReady hk bytes
  have hCount := wordCount_of_length hReady hk (input := bytes) rfl
  obtain ⟨u, hDecode⟩ := decodeBytes_of_corrected hReady' hk hCount fun i hi => by
    rw [word_bytesOfBits_codewordStream hr hi]
    exact correctedWord_of_codeword hr _
  have hNone : c.corrections (bytesOfBits (c.codewordStream bytes)) = [] := by
    rw [Codec.corrections, hCount, List.filterMap_eq_nil_iff]
    intro i hi
    rw [word_bytesOfBits_codewordStream hr (List.mem_range.mp hi)]
    exact if_pos (syndrome_hammingEncode hr _)
  rw [hNone] at hDecode
  exact ⟨_, t, u, hEncode, hDecode⟩

/-- Settles O57: as many words as chunks, and word `i` is the codeword of chunk `i`. -/
theorem noPhantomCodeword : Obligations.NoPhantomCodeword := by
  intro c s bytes hReady hk
  have hr := (Codec.r_bounds hReady hk).2
  obtain ⟨t, -, hEncode⟩ := encodeBytes_ok hReady hk bytes
  refine ⟨_, t, hEncode, ?_⟩
  rw [decodeCommands_eq, encodeCommands_eq, List.map_map, wordCount_of_length hReady hk rfl]
  refine List.map_congr_left fun i hi => ?_
  rw [word_bytesOfBits_codewordStream hr (List.mem_range.mp hi)]
  rfl

/-! ## One flipped bit (R133) -/

/-- Bit `b` of the stream lies in codeword `b / n` at position `b % n + 1`. -/
theorem eq_mul_add_iff {n i q b : Nat} (hq : q < n) : i * n + q = b ↔ i = b / n ∧ q = b % n := by
  have hn : 0 < n := by omega
  constructor
  · rintro rfl
    rw [Nat.mul_comm, Nat.mul_add_div hn, Nat.mul_add_mod, Nat.div_eq_of_lt hq, Nat.mod_eq_of_lt hq]
    simp
  · rintro ⟨rfl, rfl⟩
    exact Nat.div_add_mod' b n

theorem getLsbD_flipAt (v : Bus) {p q : Nat} (hp : 1 ≤ p) (hq : q < 64) :
    (flipAt v p).getLsbD q = (v.getLsbD q ^^ decide (q + 1 = p)) :=
  bitAt_flipAt v p (q + 1) hp (by omega) (by omega)

/-- The codewords received after bit `b` of the encoded buffer flipped. -/
theorem word_of_flipped {c : Codec} (hr : c.r ≤ 6) {input flipped : List Byte} {b i : Nat}
    (hBits : ∀ j, (bitsOfBytes flipped).getD j false =
      ((bitsOfBytes (bytesOfBits (c.codewordStream input))).getD j false ^^ decide (j = b)))
    (hi : i < c.chunkCount input) (hn : 0 < c.n) :
    c.word flipped i =
      if i = b / c.n then flipAt (c.codeword input i) (b % c.n + 1) else c.codeword input i := by
  have hn63 := Codec.n_le_63 hr
  have hReceived : ∀ q, q < c.n → (bitsOfBytes flipped).getD (i * c.n + q) false =
      ((c.codeword input i).getLsbD q ^^ decide (i = b / c.n ∧ q = b % c.n)) := fun q hq => by
    rw [hBits, getD_bitsOfBytes_bytesOfBits, getD_codewordStream hi hq]
    simp only [eq_mul_add_iff hq]
  split
  next hHit =>
    have hPos : 1 ≤ b % c.n + 1 := by omega
    have hPosN : b % c.n < c.n := Nat.mod_lt b hn
    refine word_eq hr (fun q hq => ?_) fun q hq => ?_
    · rw [hReceived q hq, getLsbD_flipAt _ hPos (by omega)]
      simp [hHit]
    · rcases Nat.lt_or_ge q 64 with h64 | h64
      · rw [getLsbD_flipAt _ hPos h64, getLsbD_codeword_of_ge input i hq, Bool.false_xor]
        exact decide_eq_false (by omega)
      · exact BitVec.getLsbD_of_ge _ _ h64
  next hMiss =>
    refine word_eq hr (fun q hq => ?_) fun _ => getLsbD_codeword_of_ge input i
    rw [hReceived q hq]
    simp [hMiss]

/-- One element of a range, picked out. -/
theorem filterMap_range_eq_singleton {α : Type} {count j : Nat} (hj : j < count) (x : α) :
    (List.range count).filterMap (fun i => if i = j then some x else none) = [x] := by
  have hPicked : ∀ m, (List.range m).filterMap (fun i => if i = j then some x else none) =
      if j < m then [x] else [] := fun m => by
    induction m with
    | zero => rfl
    | succ m ih =>
      rw [List.range_succ, List.filterMap_append, ih]
      rcases lt_trichotomy m j with hm | rfl | hm
      · simp [hm.ne, Nat.not_lt.mpr hm.le, Nat.not_lt.mpr hm]
      · simp
      · simp [hm, hm.ne', Nat.lt_succ_of_lt hm]
  rw [hPicked, if_pos hj]

/-- Settles O56: the decoder repairs the codeword that holds bit `b`, and finds the others as they were
sent. -/
theorem bufferSingleFlipIsCorrected : Obligations.BufferSingleFlipIsCorrected := by
  intro c s bytes flipped b hReady hk hb
  obtain ⟨h2, hr⟩ := Codec.r_bounds hReady hk
  obtain ⟨t, hReady', hEncode⟩ := encodeBytes_ok hReady hk bytes
  refine ⟨_, t, hEncode, fun hLength hBits => ?_⟩
  have hn : 0 < c.n := Nat.lt_of_lt_of_le hk (dataLength_le_codeLength c.r)
  have hPosN : b % c.n + 1 ≤ c.n := Nat.mod_lt b hn
  have hHit : b / c.n < c.chunkCount bytes := (Nat.div_lt_iff_lt_mul hn).mpr hb
  have hCount := wordCount_of_length hReady hk (input := bytes) hLength
  obtain ⟨u, hDecode⟩ := decodeBytes_of_corrected hReady' hk hCount fun i hi => by
    rw [word_of_flipped hr hBits hi hn]
    split
    · exact correctedWord_flipped_codeword hr (by omega) hPosN _
    · exact correctedWord_of_codeword hr _
  have hSyndrome : ∀ i ∈ List.range (c.chunkCount bytes),
      (if syndrome c.r (c.word flipped i) = 0 then none else some (i, syndrome c.r (c.word flipped i))) =
        if i = b / c.n then some (b / c.n, b % c.n + 1) else none := fun i hi => by
    rw [word_of_flipped hr hBits (List.mem_range.mp hi) hn]
    by_cases hi : i = b / c.n
    · rw [if_pos hi, Codec.codeword, syndrome_flipped_codeword hr (by omega) hPosN, if_pos hi, hi]
      exact if_neg (by omega)
    · rw [if_neg hi, Codec.codeword, syndrome_hammingEncode hr, if_neg hi, if_pos rfl]
  have hOne : c.corrections flipped = [(b / c.n, b % c.n + 1)] := by
    rw [Codec.corrections, hCount, List.filterMap_congr hSyndrome, filterMap_range_eq_singleton hHit]
  rw [hOne] at hDecode
  exact ⟨u, hDecode⟩

/-! ## Any issue order (R62) and empty blocks (R55) -/

theorem encodeBytesInPlan_of_answers {c : Codec} {input : List Byte} {plan : List Slot} {s t : State}
    {rs : List Response} (hk : 1 ≤ c.k)
    (hIssue : issueInPlan plan (encodeCommands c input) s = .ok (rs, t)) :
    encodeBytesInPlan plan c input s = .ok (encodedOf c input rs, t) := by
  rw [encodeBytesInPlan, if_neg (by omega), hIssue]
  rfl

theorem decodeBytesInPlan_of_answers {c : Codec} {input : List Byte} {plan : List Slot} {s t : State}
    {rs : List Response} (hk : 1 ≤ c.k)
    (hIssue : issueInPlan plan (decodeCommands c input) s = .ok (rs, t)) (l : Option Nat) :
    decodeBytesInPlan plan c input l s = (decodedOf c l rs).map fun d => (d, t) := by
  rw [decodeBytesInPlan, if_neg (by omega), hIssue]
  change (decodedOf c l rs >>= _) = _
  cases decodedOf c l rs <;> rfl

/-- The one way the driver refuses responses: a length above the data (R59). -/
theorem decodedOf_cases (c : Codec) (l : Option Nat) (rs : List Response) :
    (∃ d, decodedOf c l rs = .ok d) ∨ decodedOf c l rs = .error .invalidInput := by
  cases l with
  | none => exact .inl ⟨_, rfl⟩
  | some l =>
    rcases Nat.lt_or_ge (rs.flatMap fun r => bitsOf c.k r.dout).length l with hl | hl
    · exact .inr (by rw [decodedOf, truncateTo_of_gt hl]; rfl)
    · exact .inl ⟨_, by rw [decodedOf, truncateTo_of_le hl]; rfl⟩

/-- Settles O60: both drivers collect the same responses in block order. -/
theorem blocksMayBeIssuedInAnyOrder : Obligations.BlocksMayBeIssuedInAnyOrder := by
  intro c s input plan hReady hQuiet hk
  have hr := (Codec.r_bounds hReady hk).2
  constructor
  · intro hPlan
    have hAnswers := encodeCommands_answers hr input
    obtain ⟨t, -, hIssue⟩ := issueAll_answers hAnswers hReady
    obtain ⟨u, hPlanned⟩ := issueInPlan_answers hAnswers hPlan hReady hQuiet
    exact ⟨_, t, u, encodeBytes_of_answers hk hIssue, encodeBytesInPlan_of_answers hk hPlanned⟩
  · intro hPlan l
    have hAnswers := decodeCommands_answers hr input
    obtain ⟨t, -, hIssue⟩ := issueAll_answers hAnswers hReady
    obtain ⟨u, hPlanned⟩ := issueInPlan_answers hAnswers hPlan hReady hQuiet
    rw [decodeBytes_of_answers hk hIssue, decodeBytesInPlan_of_answers hk hPlanned]
    obtain ⟨d, hd⟩ | hd := decodedOf_cases c l ((decodeCommands c input).map c.decodeAnswer)
    · exact .inl ⟨d, t, u, by rw [hd]; rfl, by rw [hd]; rfl⟩
    · exact .inr ⟨by rw [hd]; rfl, by rw [hd]; rfl⟩

/-- Settles O58: the driver looks at `k` before it issues anything. -/
theorem driverRefusesEmptyBlocks : Obligations.DriverRefusesEmptyBlocks := by
  refine ⟨rfl, fun c s input l hk => ⟨?_, ?_⟩⟩
  · rw [encodeBytes, if_pos hk]
  · rw [decodeBytes, if_pos hk]

end Sys2Proof.Machine
end

section
/-! Command words and their fields (R70 to R76, R80): a word is what its fields say, so the decoder, the
encoder, the grounds of R74 and the table of R73 agree. -/

namespace Sys2Proof

/-! ## A word and its fields (R70) -/

theorem field_lt (lo width : Nat) (w : Word) : field lo width w < 2 ^ width := BitVec.isLt _

theorem fieldOp_lt (w : Word) : fieldOp w < 16 := field_lt 0 4 w
theorem fieldLen_lt (w : Word) : fieldLen w < 128 := field_lt 4 7 w
theorem fieldA_lt (w : Word) : fieldA w < 128 := field_lt 11 7 w
theorem fieldB_lt (w : Word) : fieldB w < 128 := field_lt 18 7 w
theorem fieldRsv_lt (w : Word) : fieldRsv w < 128 := field_lt 25 7 w

theorem fitsField_fieldLen (w : Word) : fitsField (fieldLen w) = true := fitsField_iff.mpr (fieldLen_lt w)
theorem fitsField_fieldA (w : Word) : fitsField (fieldA w) = true := fitsField_iff.mpr (fieldA_lt w)
theorem fitsField_fieldB (w : Word) : fitsField (fieldB w) = true := fitsField_iff.mpr (fieldB_lt w)

/-- The five fields of R70 make up the word. -/
theorem toNat_eq_fields (w : Word) :
    w.toNat = fieldOp w + fieldLen w * 2 ^ 4 + fieldA w * 2 ^ 11 + fieldB w * 2 ^ 18 +
      fieldRsv w * 2 ^ 25 := by
  have hw : w.toNat < 2 ^ 32 := w.isLt
  simp only [fieldOp, fieldLen, fieldA, fieldB, fieldRsv, field_eq]
  omega

/-- A word with nothing in `RSV` is built from its other fields (R80). -/
theorem commandWord_fields {w : Word} (hRsv : fieldRsv w = 0) :
    commandWord (fieldOp w) (fieldLen w) (fieldA w) (fieldB w) = w := by
  apply BitVec.eq_of_toNat_eq
  rw [toNat_commandWord (fieldOp_lt w) (fieldLen_lt w) (fieldA_lt w) (fieldB_lt w), toNat_eq_fields w,
    hRsv, Nat.zero_mul, Nat.add_zero]

/-! ## What the decoder answers (R72, R74) -/

/-- The arms of the decoder by the fields the opcode uses (R72), each with its condition on `w` and what
it answers; `mk` is the opcode's command. -/
inductive DecodeArm (w : Word) : Except Illegal Instr → Prop
  | reserved (hRsv : fieldRsv w ≠ 0) : DecodeArm w (.error .reservedBits)
  | onlyA {mk : Nat → Instr} (hRsv : fieldRsv w = 0) (hOp : fieldOp w = 1 ∨ fieldOp w = 8)
      (hWf : ∀ a, (mk a).wf = fitsField a) (hWord : ∀ a, encode (mk a) = commandWord (fieldOp w) 0 a 0) :
      DecodeArm w (decodeA w mk)
  | onlyLen {mk : Nat → Instr} (hRsv : fieldRsv w = 0) (hOp : 2 ≤ fieldOp w ∧ fieldOp w ≤ 7)
      (hWf : ∀ len, (mk len).wf = fitsField len)
      (hWord : ∀ len, encode (mk len) = commandWord (fieldOp w) len 0 0) :
      DecodeArm w (decodeLen w mk)
  | covers (hRsv : fieldRsv w = 0) (hOp : fieldOp w = 9) :
      DecodeArm w (whenUnusedZero (fieldLen w == 0) (.covers (fieldA w) (fieldB w)))
  | unassigned (hRsv : fieldRsv w = 0) (hOp : fieldOp w = 0 ∨ 10 ≤ fieldOp w) :
      DecodeArm w (.error .unassignedOpcode)

/-- Every word is decoded by one of the arms. -/
theorem decode_arm (w : Word) : DecodeArm w (decode w) := by
  unfold decode
  split
  next hRsv => exact .reserved hRsv
  next hRsv =>
    replace hRsv := not_not.mp hRsv
    split
    next hOp => exact .onlyA hRsv (.inl hOp) (fun _ => rfl) (fun _ => by rw [hOp]; rfl)
    next hOp => exact .onlyLen hRsv (by omega) (fun _ => rfl) (fun _ => by rw [hOp]; rfl)
    next hOp => exact .onlyLen hRsv (by omega) (fun _ => rfl) (fun _ => by rw [hOp]; rfl)
    next hOp => exact .onlyLen hRsv (by omega) (fun _ => rfl) (fun _ => by rw [hOp]; rfl)
    next hOp => exact .onlyLen hRsv (by omega) (fun _ => rfl) (fun _ => by rw [hOp]; rfl)
    next hOp => exact .onlyLen hRsv (by omega) (fun _ => rfl) (fun _ => by rw [hOp]; rfl)
    next hOp => exact .onlyLen hRsv (by omega) (fun _ => rfl) (fun _ => by rw [hOp]; rfl)
    next hOp => exact .onlyA hRsv (.inr hOp) (fun _ => rfl) (fun _ => by rw [hOp]; rfl)
    next hOp => exact .covers hRsv hOp
    next => exact .unassigned hRsv (by simp only [imp_false] at *; omega)

theorem whenUnusedZero_eq_ok {z : Bool} {i j : Instr} :
    whenUnusedZero z i = .ok j ↔ z = true ∧ i = j := by
  cases z <;> simp [whenUnusedZero]

theorem whenUnusedZero_refuses {z : Bool} {i : Instr} :
    (∃ e, whenUnusedZero z i = .error e) ↔ (!z) = true := by
  cases z <;> simp [whenUnusedZero]

/-- A legal word is the word of the well-formed command it decodes to. -/
theorem encode_decode {w : Word} {i : Instr} (h : decode w = .ok i) : i.wf = true ∧ encode i = w := by
  have hArm := decode_arm w
  rw [h] at hArm
  generalize hr : Except.ok i = r at hArm
  cases hArm with
  | reserved => cases hr
  | unassigned => cases hr
  | onlyA hRsv _ hWf hWord =>
    obtain ⟨hUnused, rfl⟩ := whenUnusedZero_eq_ok.mp hr.symm
    obtain ⟨hLen, hB⟩ : fieldLen w = 0 ∧ fieldB w = 0 := by simpa using hUnused
    refine ⟨(hWf _).trans (fitsField_fieldA w), ?_⟩
    simpa [hLen, hB, hWord] using commandWord_fields hRsv
  | onlyLen hRsv _ hWf hWord =>
    obtain ⟨hUnused, rfl⟩ := whenUnusedZero_eq_ok.mp hr.symm
    obtain ⟨hA, hB⟩ : fieldA w = 0 ∧ fieldB w = 0 := by simpa using hUnused
    refine ⟨(hWf _).trans (fitsField_fieldLen w), ?_⟩
    simpa [hA, hB, hWord] using commandWord_fields hRsv
  | covers hRsv hOp =>
    obtain ⟨hUnused, rfl⟩ := whenUnusedZero_eq_ok.mp hr.symm
    have hLen : fieldLen w = 0 := by simpa using hUnused
    refine ⟨Bool.and_eq_true_iff.mpr ⟨fitsField_fieldA w, fitsField_fieldB w⟩, ?_⟩
    have hw := commandWord_fields hRsv
    rwa [hOp, hLen] at hw

/-- The decoder accepts exactly the words of the well-formed commands. -/
theorem decode_eq_ok_iff {w : Word} {i : Instr} :
    decode w = .ok i ↔ i.wf = true ∧ encode i = w :=
  ⟨encode_decode, fun ⟨hWf, hw⟩ => hw ▸ decode_encode hWf⟩

/-- Settles O1: each field of the word is read back as the operand it was built from. -/
theorem decodeOfEncode : Obligations.DecodeOfEncode := fun _ => decode_encode

/-- Settles O2: a legal word has zeros in `RSV` and in its unused fields, so it is built from the rest. -/
theorem encodeOfDecode : Obligations.EncodeOfDecode := fun _ _ => encode_decode

/-- Settles O4, arm by arm of the decoder. -/
theorem decoderRefusesExactlyIllegalWords : Obligations.DecoderRefusesExactlyIllegalWords := by
  intro w
  have hArm := decode_arm w
  generalize decode w = r at hArm ⊢
  cases hArm with
  | reserved hRsv => simp [illegalWord, hRsv]
  | unassigned hRsv hOp => obtain hOp | hOp := hOp <;> simp [illegalWord, hOp]
  | onlyA hRsv hOp =>
    rw [decodeA, whenUnusedZero_refuses]
    obtain hOp | hOp := hOp <;> simp [illegalWord, hRsv, hOp]
  | onlyLen hRsv hOp =>
    rw [decodeLen, whenUnusedZero_refuses]
    have hOthers : fieldOp w ≠ 0 ∧ ¬ 10 ≤ fieldOp w ∧ fieldOp w ≠ 1 ∧ fieldOp w ≠ 8 ∧ fieldOp w ≠ 9 := by
      omega
    simp [illegalWord, hRsv, hOp, hOthers]
  | covers hRsv hOp =>
    rw [whenUnusedZero_refuses]
    simp [illegalWord, hRsv, hOp]

/-- Settles O5: the ten words are the encodings of their commands (R80). -/
theorem exampleWordsDecode : Obligations.ExampleWordsDecode :=
  ⟨decode_encode (i := .cfg 3) rfl, decode_encode (i := .cfg 4) rfl,
    decode_encode (i := .encG 4) rfl, decode_encode (i := .decG 7) rfl,
    decode_encode (i := .enc74 4) rfl, decode_encode (i := .dec74 7) rfl,
    decode_encode (i := .enc1511 11) rfl, decode_encode (i := .dec1511 15) rfl,
    decode_encode (i := .isPow2 8) rfl, decode_encode (i := .covers 4 15) rfl, _, rfl⟩

/-! ## The table of R73 and the procedure of R76 -/

/-- Which words are built from given operands. -/
theorem eq_commandWord_iff {op len a b : Nat} {w : Word} (hop : op < 16) (hlen : len < 128)
    (ha : a < 128) (hb : b < 128) :
    w = commandWord op len a b ↔
      fieldOp w = op ∧ fieldLen w = len ∧ fieldA w = a ∧ fieldB w = b ∧ fieldRsv w = 0 := by
  constructor
  · rintro rfl
    exact fields_commandWord hop hlen ha hb
  · rintro ⟨rfl, rfl, rfl, rfl, hRsv⟩
    exact (commandWord_fields hRsv).symm

/-- A mask acts on each field on its own. -/
theorem field_and (lo width : Nat) (w m : Word) :
    field lo width (w &&& m) = field lo width w &&& field lo width m := by
  rw [field, BitVec.extractLsb'_and, BitVec.toNat_and]
  rfl

/-- A mask that holds a whole field keeps it. -/
theorem field_and_of_full {lo width : Nat} {m : Word} (w : Word)
    (hm : field lo width m = 2 ^ width - 1) : field lo width (w &&& m) = field lo width w := by
  rw [field_and, hm, Nat.and_two_pow_sub_one_of_lt_two_pow (field_lt ..)]

/-- A mask that leaves a field free clears it. -/
theorem field_and_of_free {lo width : Nat} {m : Word} (w : Word) (hm : field lo width m = 0) :
    field lo width (w &&& m) = 0 := by
  rw [field_and, hm, Nat.and_zero]

/-- Under a mask that holds `OP` and `RSV`, as every mask of R73 does, a word is an opcode and nothing
else iff it has that opcode, zeros in `RSV`, and zeros where the mask holds its other fields. -/
theorem and_eq_opcode_iff {w m : Word} {op : Nat} (hop : op < 16) (hmOp : fieldOp m = 15)
    (hmRsv : fieldRsv m = 127) :
    w &&& m = commandWord op 0 0 0 ↔
      fieldOp w = op ∧ fieldLen (w &&& m) = 0 ∧ fieldA (w &&& m) = 0 ∧ fieldB (w &&& m) = 0 ∧
      fieldRsv w = 0 := by
  have hOp : fieldOp (w &&& m) = fieldOp w := field_and_of_full w hmOp
  have hRsv : fieldRsv (w &&& m) = fieldRsv w := field_and_of_full w hmRsv
  rw [eq_commandWord_iff hop (by decide) (by decide) (by decide), hOp, hRsv]

/-- The rows of R73 that leave `A` free match the words whose only operand is `A`. -/
theorem maskA_iff {w : Word} {op : Nat} (hop : op < 16) :
    w &&& 0xFFFC07FF = commandWord op 0 0 0 ↔ ∃ a, fitsField a = true ∧ commandWord op 0 a 0 = w := by
  have hLen : fieldLen (w &&& 0xFFFC07FF) = fieldLen w := field_and_of_full w rfl
  have hA : fieldA (w &&& 0xFFFC07FF) = 0 := field_and_of_free w rfl
  have hB : fieldB (w &&& 0xFFFC07FF) = fieldB w := field_and_of_full w rfl
  rw [and_eq_opcode_iff hop rfl rfl, hLen, hA, hB]
  constructor
  · rintro ⟨rfl, hLen0, -, hB0, hRsv⟩
    exact ⟨_, fitsField_fieldA w, by simpa only [hLen0, hB0] using commandWord_fields hRsv⟩
  · rintro ⟨a, ha, rfl⟩
    obtain ⟨hOp, hLen0, -, hB0, hRsv⟩ :=
      fields_commandWord hop (by decide : 0 < 128) (fitsField_iff.mp ha) (by decide : 0 < 128)
    exact ⟨hOp, hLen0, rfl, hB0, hRsv⟩

/-- The rows of R73 that leave `LEN` free match the words whose only operand is `LEN`. -/
theorem maskLen_iff {w : Word} {op : Nat} (hop : op < 16) :
    w &&& 0xFFFFF80F = commandWord op 0 0 0 ↔
      ∃ len, fitsField len = true ∧ commandWord op len 0 0 = w := by
  have hLen : fieldLen (w &&& 0xFFFFF80F) = 0 := field_and_of_free w rfl
  have hA : fieldA (w &&& 0xFFFFF80F) = fieldA w := field_and_of_full w rfl
  have hB : fieldB (w &&& 0xFFFFF80F) = fieldB w := field_and_of_full w rfl
  rw [and_eq_opcode_iff hop rfl rfl, hLen, hA, hB]
  constructor
  · rintro ⟨rfl, -, hA0, hB0, hRsv⟩
    exact ⟨_, fitsField_fieldLen w, by simpa only [hA0, hB0] using commandWord_fields hRsv⟩
  · rintro ⟨len, hlen, rfl⟩
    obtain ⟨hOp, -, hA0, hB0, hRsv⟩ :=
      fields_commandWord hop (fitsField_iff.mp hlen) (by decide : 0 < 128) (by decide : 0 < 128)
    exact ⟨hOp, rfl, hA0, hB0, hRsv⟩

/-- The row of R73 that leaves `A` and `B` free matches the words with these two operands. -/
theorem maskAB_iff {w : Word} {op : Nat} (hop : op < 16) :
    w &&& 0xFE0007FF = commandWord op 0 0 0 ↔
      ∃ a b, (fitsField a && fitsField b) = true ∧ commandWord op 0 a b = w := by
  have hLen : fieldLen (w &&& 0xFE0007FF) = fieldLen w := field_and_of_full w rfl
  have hA : fieldA (w &&& 0xFE0007FF) = 0 := field_and_of_free w rfl
  have hB : fieldB (w &&& 0xFE0007FF) = 0 := field_and_of_free w rfl
  rw [and_eq_opcode_iff hop rfl rfl, hLen, hA, hB]
  constructor
  · rintro ⟨rfl, hLen0, -, -, hRsv⟩
    exact ⟨_, _, Bool.and_eq_true_iff.mpr ⟨fitsField_fieldA w, fitsField_fieldB w⟩,
      by simpa only [hLen0] using commandWord_fields hRsv⟩
  · rintro ⟨a, b, hab, rfl⟩
    obtain ⟨ha, hb⟩ := Bool.and_eq_true_iff.mp hab
    obtain ⟨hOp, hLen0, -, -, hRsv⟩ :=
      fields_commandWord hop (by decide : 0 < 128) (fitsField_iff.mp ha) (fitsField_iff.mp hb)
    exact ⟨hOp, hLen0, rfl, rfl, hRsv⟩

/-- A word that a row of R73 matches decodes to a command of the row's mnemonic. -/
theorem decode_of_row {row : OpcodeRow} {w : Word} (hRow : row ∈ opcodeRows)
    (hHit : w &&& row.mask = row.matchWord) :
    ∃ i, decode w = .ok i ∧ i.mnemonic = row.mnemonic := by
  simp only [opcodeRows, List.mem_cons, List.not_mem_nil, or_false] at hRow
  simp only [decode_eq_ok_iff]
  obtain rfl | rfl | rfl | rfl | rfl | rfl | rfl | rfl | rfl := hRow
  · obtain ⟨r, h⟩ := (maskA_iff (op := 1) (by decide)).mp hHit
    exact ⟨.cfg r, h, rfl⟩
  · obtain ⟨len, h⟩ := (maskLen_iff (op := 2) (by decide)).mp hHit
    exact ⟨.encG len, h, rfl⟩
  · obtain ⟨len, h⟩ := (maskLen_iff (op := 3) (by decide)).mp hHit
    exact ⟨.decG len, h, rfl⟩
  · obtain ⟨len, h⟩ := (maskLen_iff (op := 4) (by decide)).mp hHit
    exact ⟨.enc74 len, h, rfl⟩
  · obtain ⟨len, h⟩ := (maskLen_iff (op := 5) (by decide)).mp hHit
    exact ⟨.dec74 len, h, rfl⟩
  · obtain ⟨len, h⟩ := (maskLen_iff (op := 6) (by decide)).mp hHit
    exact ⟨.enc1511 len, h, rfl⟩
  · obtain ⟨len, h⟩ := (maskLen_iff (op := 7) (by decide)).mp hHit
    exact ⟨.dec1511 len, h, rfl⟩
  · obtain ⟨pos, h⟩ := (maskA_iff (op := 8) (by decide)).mp hHit
    exact ⟨.isPow2 pos, h, rfl⟩
  · obtain ⟨p, n, h⟩ := (maskAB_iff (op := 9) (by decide)).mp hHit
    exact ⟨.covers p n, h, rfl⟩

/-- The word of a command is matched by the row of its mnemonic (R73). -/
theorem row_of_decode {w : Word} {i : Instr} (h : decode w = .ok i) :
    ∃ row ∈ opcodeRows, row.mnemonic = i.mnemonic ∧ w &&& row.mask = row.matchWord := by
  replace h := decode_eq_ok_iff.mp h
  cases i with
  | cfg r => exact ⟨⟨.CFG, 1, _⟩, by decide, rfl, (maskA_iff (op := 1) (by decide)).mpr ⟨r, h⟩⟩
  | encG l => exact ⟨⟨.ENC_G, 2, _⟩, by decide, rfl, (maskLen_iff (op := 2) (by decide)).mpr ⟨l, h⟩⟩
  | decG l => exact ⟨⟨.DEC_G, 3, _⟩, by decide, rfl, (maskLen_iff (op := 3) (by decide)).mpr ⟨l, h⟩⟩
  | enc74 l => exact ⟨⟨.ENC_74, 4, _⟩, by decide, rfl, (maskLen_iff (op := 4) (by decide)).mpr ⟨l, h⟩⟩
  | dec74 l => exact ⟨⟨.DEC_74, 5, _⟩, by decide, rfl, (maskLen_iff (op := 5) (by decide)).mpr ⟨l, h⟩⟩
  | enc1511 l =>
    exact ⟨⟨.ENC_1511, 6, _⟩, by decide, rfl, (maskLen_iff (op := 6) (by decide)).mpr ⟨l, h⟩⟩
  | dec1511 l =>
    exact ⟨⟨.DEC_1511, 7, _⟩, by decide, rfl, (maskLen_iff (op := 7) (by decide)).mpr ⟨l, h⟩⟩
  | isPow2 pos => exact ⟨⟨.ISPOW2, 8, _⟩, by decide, rfl, (maskA_iff (op := 8) (by decide)).mpr ⟨pos, h⟩⟩
  | covers p n =>
    exact ⟨⟨.COVERS, 9, _⟩, by decide, rfl, (maskAB_iff (op := 9) (by decide)).mpr ⟨p, n, h⟩⟩

/-- No mnemonic has two rows. -/
theorem eq_of_mnemonic_eq :
    ∀ a ∈ opcodeRows, ∀ b ∈ opcodeRows, a.mnemonic = b.mnemonic → a = b := by decide

/-- A row of R73 matches exactly the words that decode to a command of its mnemonic. -/
theorem row_hits_iff {row : OpcodeRow} {w : Word} (hRow : row ∈ opcodeRows) :
    w &&& row.mask = row.matchWord ↔ ∃ i, decode w = .ok i ∧ i.mnemonic = row.mnemonic := by
  constructor
  · exact decode_of_row hRow
  · rintro ⟨i, hi, hMnemonic⟩
    obtain ⟨other, hOther, hSame, hHit⟩ := row_of_decode hi
    rwa [eq_of_mnemonic_eq row hRow other hOther (hMnemonic.symm.trans hSame.symm)]

/-- "At most one row matches any word" (R73): both rows give the mnemonic of the decoded command. -/
theorem row_unique {a b : OpcodeRow} {w : Word} (ha : a ∈ opcodeRows) (hb : b ∈ opcodeRows)
    (haHit : w &&& a.mask = a.matchWord) (hbHit : w &&& b.mask = b.matchWord) : a = b := by
  obtain ⟨i, hi, hia⟩ := decode_of_row ha haHit
  obtain ⟨j, hj, hjb⟩ := decode_of_row hb hbHit
  obtain rfl : i = j := Except.ok.inj (hi.symm.trans hj)
  exact eq_of_mnemonic_eq a ha b hb (hia.symm.trans hjb)

theorem OpcodeRow.hits_iff {row : OpcodeRow} {w : Word} :
    row.hits w = true ↔ w &&& row.mask = row.matchWord := beq_iff_eq

/-- The procedure of R76 finds the mnemonic of the decoded command. -/
theorem mnemonicOf_of_decode {w : Word} {i : Instr} (h : decode w = .ok i) :
    mnemonicOf w = some i.mnemonic := by
  obtain ⟨row, hRow, hMnemonic, hHit⟩ := row_of_decode h
  have hFound : (opcodeRows.find? (·.hits w)).isSome :=
    List.find?_isSome.mpr ⟨row, hRow, OpcodeRow.hits_iff.mpr hHit⟩
  obtain ⟨found, hFind⟩ := Option.isSome_iff_exists.mp hFound
  have hFoundHit : found.hits w = true := List.find?_some (p := (OpcodeRow.hits · w)) hFind
  rw [mnemonicOf, hFind, row_unique (List.mem_of_find?_eq_some hFind) hRow
    (OpcodeRow.hits_iff.mp hFoundHit) hHit, ← hMnemonic]
  rfl

/-- The procedure of R76 finds no row exactly for the words the decoder refuses. -/
theorem mnemonicOf_eq_none_iff {w : Word} : mnemonicOf w = none ↔ ∃ e, decode w = .error e := by
  constructor
  · intro hNone
    cases hw : decode w with
    | error e => exact ⟨e, rfl⟩
    | ok i => rw [mnemonicOf_of_decode hw] at hNone; cases hNone
  · rintro ⟨e, he⟩
    refine Option.map_eq_none_iff.mpr (List.find?_eq_none.mpr fun row hRow hHit => ?_)
    obtain ⟨i, hi, -⟩ := decode_of_row hRow (OpcodeRow.hits_iff.mp hHit)
    rw [he] at hi
    cases hi

/-- Settles O3: a row matches exactly the words that decode to its mnemonic, and no mnemonic has two
rows. -/
theorem matchAndMaskSelectTheCommand : Obligations.MatchAndMaskSelectTheCommand := fun _ =>
  ⟨fun _ => row_hits_iff, fun _ ha _ hb => row_unique ha hb, fun _ => mnemonicOf_of_decode,
    mnemonicOf_eq_none_iff⟩

/-! ## Assembling (R78 to R80) -/

/-- Operands and a `din` that fit are assembled. -/
theorem assembleCore_of_fits {i : Instr} {din : Nat} (hWf : i.wf = true) (hDin : din < 2 ^ 64) :
    Machine.assembleCore i din = some ⟨encode i, BitVec.ofNat 64 din⟩ :=
  if_pos (Bool.and_eq_true_iff.mpr ⟨hWf, decide_eq_true hDin⟩)

/-- An operand that does not fit its field is an assembly error (R78). -/
theorem assembleCore_of_not_wf {i : Instr} {din : Nat} (hWf : i.wf = false) :
    Machine.assembleCore i din = none := by
  rw [Machine.assembleCore, hWf, Bool.false_and, if_neg Bool.false_ne_true]

/-- Settles O59: a line's word is the encoding of its instruction, and the short forms are assembled as
the core forms of their block length. -/
theorem assembledLinesDecode : Obligations.AssembledLinesDecode :=
  ⟨fun _ _ hWf hDin =>
      ⟨_, assembleCore_of_fits hWf hDin, decode_encode hWf, Nat.mod_eq_of_lt hDin⟩,
    fun _ _ => assembleCore_of_not_wf, fun _ => ⟨rfl, rfl, rfl, rfl⟩⟩

end Sys2Proof
end

section
/-! Proofs about the position utilities (R100 to R106, R110). -/

namespace Sys2Proof.Machine

/-! ## ISPOW2 (R110) -/

theorem exec_isPow2_of_isPowerOfTwo {pos : Nat} (h : isPowerOfTwo pos = true) (s : State) :
    exec (.isPow2 pos) s = .next (respond .ok 1 0 s) := by
  simp only [exec, execIsPow2, if_pos h]

theorem exec_isPow2_of_not_isPowerOfTwo {pos : Nat} (h : ¬ isPowerOfTwo pos = true) (s : State) :
    exec (.isPow2 pos) s = .next (respond .ok 0 0 s) := by
  simp only [exec, execIsPow2, if_neg h]

/-- Settles O26, by `isPowerOfTwo_iff`: the classifier holds at the powers of two alone. -/
theorem isPow2Result : Obligations.IsPow2Result := fun pos s =>
  ⟨fun hPow => exec_isPow2_of_isPowerOfTwo ((isPowerOfTwo_iff pos).mpr hPow) s, fun hNot =>
    exec_isPow2_of_not_isPowerOfTwo (fun h => hNot ((isPowerOfTwo_iff pos).mp h)) s⟩

/-! ## Parity and data positions (R102, R103) -/

theorem parityPositions_length (r : Nat) : (parityPositions r).length = r := by
  simp [parityPositions]

/-- Settles O38: the members are the powers below `2^r`, which are the powers of two up to `n`. -/
theorem parityPositionsAreThePowersOfTwo : Obligations.ParityPositionsAreThePowersOfTwo := fun r =>
  ⟨parityPositions_length r, parityPositions_nodup r, mem_parityPositions r,
    mem_parityPositions_iff_isPowerOfTwo r⟩

/-- A choice of the positions `1, ..., n` keeps their order. -/
theorem dataPositions_pairwise_lt (r : Nat) : (dataPositions r).Pairwise (· < ·) :=
  List.Pairwise.filter _ List.pairwise_lt_range'

/-- Settles O39: `k` data positions, as the others are the `r` parity positions; the cases R103 lists by
evaluation. -/
theorem dataPositionsAscend : Obligations.DataPositionsAscend :=
  ⟨fun r => ⟨dataPositions_pairwise_lt r, mem_dataPositions r, dataPositions_length r⟩,
    by decide, by decide, by decide, by decide⟩

/-! ## Covered sets (R101) -/

theorem self_mem_coveredSet {p n : Nat} (hPos : 1 ≤ p) (hMax : p ≤ n) : p ∈ coveredSet p n := by
  rw [mem_coveredSet, Nat.and_self]
  exact ⟨⟨hPos, hMax⟩, Nat.ne_of_gt hPos⟩

theorem coveredSet_zero_left (n : Nat) : coveredSet 0 n = [] := by simp [coveredSet]

theorem coveredSet_zero_right (p : Nat) : coveredSet p 0 = [] := rfl

theorem and_ne_zero_iff_exists_testBit (x p : Nat) :
    x &&& p ≠ 0 ↔ ∃ j, p.testBit j = true ∧ x.testBit j = true := by
  constructor
  · intro h
    obtain ⟨j, hj⟩ := Nat.exists_testBit_of_ne_zero h
    rw [Nat.testBit_and, Bool.and_eq_true] at hj
    exact ⟨j, hj.symm⟩
  · rintro ⟨j, hp, hx⟩ h
    have hBit := congrArg (Nat.testBit · j) h
    simp [hp, hx] at hBit

/-- The covered set of `p` is the union of those of its bits (R101). -/
theorem mem_coveredSet_iff_exists_bit (p n x : Nat) :
    x ∈ coveredSet p n ↔ ∃ j, p.testBit j = true ∧ x ∈ coveredSet (2 ^ j) n := by
  rw [mem_coveredSet, and_ne_zero_iff_exists_testBit]
  simp only [mem_coveredSet_two_pow]
  constructor
  · rintro ⟨hx, j, hp, hBit⟩
    exact ⟨j, hp, hx, hBit⟩
  · rintro ⟨j, hp, hx, hBit⟩
    exact ⟨hx, j, hp, hBit⟩

/-- Settles O40: `x & p` is not 0 exactly when `x` and `p` share a bit. -/
theorem coveredSetMembers : Obligations.CoveredSetMembers := fun p n =>
  ⟨mem_coveredSet p n, self_mem_coveredSet, coveredSet_zero_left n, coveredSet_zero_right p,
    mem_coveredSet_iff_exists_bit p n⟩

/-! ## The coverage invariant (R104, R105) -/

/-- A parity position covers itself alone among the parity positions (R104). -/
theorem two_pow_mem_coveredSet_two_pow_iff {j k r : Nat} (hj : j < r) (hk : k < r) :
    2 ^ k ∈ coveredSet (2 ^ j) (codeLength r) ↔ k = j := by
  constructor
  · intro hCovered
    exact Nat.pow_right_injective (le_refl 2) <| eq_of_covered_parityPosition
      ((mem_parityPositions r _).mpr ⟨j, hj, rfl⟩) ((mem_parityPositions r _).mpr ⟨k, hk, rfl⟩) hCovered
  · rintro rfl
    exact self_mem_coveredSet (Nat.two_pow_pos k) (two_pow_le_codeLength hk)

/-- Beside itself a parity position covers data positions only (R104): any other power of two in range is
another parity position. -/
theorem mem_dataPositions_of_covered {j r x : Nat} (hj : j < r)
    (hCovered : x ∈ coveredSet (2 ^ j) (codeLength r)) (hne : x ≠ 2 ^ j) : x ∈ dataPositions r := by
  have hRange := ((mem_coveredSet _ _ x).mp hCovered).1
  refine (mem_dataPositions r x).mpr ⟨hRange, Bool.eq_false_iff.mpr fun hPow => hne ?_⟩
  exact eq_of_covered_parityPosition ((mem_parityPositions r _).mpr ⟨j, hj, rfl⟩)
    ((mem_parityPositions_iff_isPowerOfTwo r x).mpr ⟨hRange, hPow⟩) hCovered

/-- The parity positions whose covered set contains `x` (R105). -/
def coveringPositions (r x : Nat) : List Nat :=
  (parityPositions r).filter fun p => (coveredSet p (codeLength r)).contains x

/-- They are the `2^j` with `x[j] = 1` (R105). -/
theorem mem_coveringPositions {r x : Nat} (hPos : 1 ≤ x) (hMax : x ≤ codeLength r) (p : Nat) :
    p ∈ coveringPositions r x ↔ ∃ j, j < r ∧ x.testBit j = true ∧ p = 2 ^ j := by
  rw [coveringPositions, List.mem_filter, mem_parityPositions, List.contains_iff_mem]
  constructor
  · rintro ⟨⟨j, hj, rfl⟩, hCovered⟩
    exact ⟨j, hj, ((mem_coveredSet_two_pow j _ x).mp hCovered).2, rfl⟩
  · rintro ⟨j, hj, hBit, rfl⟩
    exact ⟨⟨j, hj, rfl⟩, (mem_coveredSet_two_pow j _ x).mpr ⟨⟨hPos, hMax⟩, hBit⟩⟩

theorem testBit_foldl_lor (S : List Nat) (a i : Nat) :
    (S.foldl (· ||| ·) a).testBit i = true ↔ a.testBit i = true ∨ ∃ p ∈ S, p.testBit i = true := by
  induction S generalizing a with
  | nil => simp
  | cons p S ih =>
    rw [List.foldl_cons, ih, Nat.testBit_or, Bool.or_eq_true, List.exists_mem_cons_iff, or_assoc]

theorem lt_of_testBit_of_le_codeLength {r x i : Nat} (hMax : x ≤ codeLength r)
    (hBit : x.testBit i = true) : i < r := by
  have hPow : 2 ^ i < 2 ^ r := by
    have := Nat.ge_two_pow_of_testBit hBit
    have := Nat.two_pow_pos r
    unfold codeLength at hMax
    omega
  exact (Nat.pow_lt_pow_iff_right (a := 2) (by decide)).mp hPow

/-- Each bit of `x` comes from the one parity position of that weight (R105). -/
theorem foldl_lor_coveringPositions {r x : Nat} (hPos : 1 ≤ x) (hMax : x ≤ codeLength r) :
    (coveringPositions r x).foldl (· ||| ·) 0 = x := by
  refine Nat.eq_of_testBit_eq fun i => Bool.eq_iff_iff.mpr ?_
  simp only [testBit_foldl_lor, mem_coveringPositions hPos hMax, Nat.zero_testBit, Bool.false_eq_true,
    false_or]
  constructor
  · rintro ⟨p, ⟨j, -, hBit, rfl⟩, hp⟩
    rw [Nat.testBit_two_pow, decide_eq_true_iff] at hp
    exact hp ▸ hBit
  · intro hBit
    exact ⟨2 ^ i, ⟨i, lt_of_testBit_of_le_codeLength hMax hBit, hBit, rfl⟩, Nat.testBit_two_pow_self⟩

/-- Settles O41, clause by clause; a position is the OR of its bits' weights. -/
theorem coverageInvariant : Obligations.CoverageInvariant := fun _ =>
  ⟨fun _ _ => two_pow_mem_coveredSet_two_pow_iff, fun _ _ => mem_dataPositions_of_covered,
    fun x hPos hMax =>
      ⟨fun j _ => (mem_coveredSet_two_pow j _ x).trans (and_iff_right ⟨hPos, hMax⟩),
        foldl_lor_coveringPositions hPos hMax⟩⟩

/-- Settles O42, by evaluation of the masks, row by row of the table of R106. -/
theorem coverageMasks : Obligations.CoverageMasks :=
  ⟨by decide, by decide, by decide, by decide, by decide, by decide⟩

end Sys2Proof.Machine
end

section
/-! Proofs about the general codec (R122 to R133, R195): what `ENC.G` and `DEC.G` check, the parity equations
read off the positions, and what one or two flipped bits do to a codeword. -/

namespace Sys2Proof.Machine

/-! ## The checks of ENC.G and DEC.G, in the order of R172 -/

theorem exec_encG_of_unconfigured {s : State} (hValid : s.cfgValid = false) (len : Nat) :
    exec (.encG len) s = .next (raise .notConfigured s) :=
  withGeneralCodec_of_unconfigured hValid fun r => encodeBlock r len s

theorem exec_decG_of_unconfigured {s : State} (hValid : s.cfgValid = false) (len : Nat) :
    exec (.decG len) s = .next (raise .notConfigured s) :=
  withGeneralCodec_of_unconfigured hValid fun r => decodeBlock r len s

theorem encodeBlock_of_ne {r len : Nat} (hLen : len ≠ dataLength r) (s : State) :
    encodeBlock r len s = .next (raise .invalidInput s) := if_pos hLen

theorem decodeBlock_of_ne {r len : Nat} (hLen : len ≠ codeLength r) (s : State) :
    decodeBlock r len s = .next (raise .invalidInput s) := if_pos hLen

theorem exec_encG_of_ne {s : State} (hValid : s.cfgValid = true) {len : Nat}
    (hLen : len ≠ dataLength s.cfgR.toNat) : exec (.encG len) s = .next (raise .invalidInput s) :=
  (withGeneralCodec_of_configured hValid fun r => encodeBlock r len s).trans (encodeBlock_of_ne hLen s)

/-- `DEC.G` on a configured core is the decode body at `CFG_R` (R129). -/
theorem exec_decG_eq_decodeBlock {r : Nat} {s : State} (hValid : s.cfgValid = true)
    (hR : s.cfgR.toNat = r) (len : Nat) : exec (.decG len) s = decodeBlock r len s := by
  subst hR
  exact withGeneralCodec_of_configured hValid fun r => decodeBlock r len s

theorem exec_decG_of_ne {s : State} (hValid : s.cfgValid = true) {len : Nat}
    (hLen : len ≠ codeLength s.cfgR.toNat) : exec (.decG len) s = .next (raise .invalidInput s) :=
  (exec_decG_eq_decodeBlock hValid rfl len).trans (decodeBlock_of_ne hLen s)

theorem decodeResponse_of_syndrome_eq_zero {r : Nat} {c : Bus} (h : syndrome r c = 0) :
    decodeResponse r c = ⟨.ok, extract r c, 0⟩ := if_pos h

theorem decodeResponse_of_syndrome_ne_zero {r : Nat} {c : Bus} (h : syndrome r c ≠ 0) :
    decodeResponse r c =
      ⟨.corrected, extract r (flipAt c (syndrome r c)), BitVec.ofNat 7 (syndrome r c)⟩ := if_neg h

/-- `DEC.G` at its own length gives the decoder's response to the received word (R129). -/
theorem exec_decG_of_response {s : State} {rsp : Response} (hValid : s.cfgValid = true)
    (hRsp : decodeResponse s.cfgR.toNat (lowBits (codeLength s.cfgR.toNat) s.din) = rsp) :
    exec (.decG (codeLength s.cfgR.toNat)) s = .next { s with response := some rsp } :=
  hRsp ▸ exec_decG_of_configured hValid rfl

/-- Settles O20, check by check. -/
theorem encGResult : Obligations.EncGResult := by
  intro len s
  refine ⟨fun hValid => exec_encG_of_unconfigured hValid len,
    fun hValid hLen => exec_encG_of_ne hValid hLen, ?_⟩
  rintro hValid rfl
  exact exec_encG_of_configured hValid rfl

/-- Settles O21: check by check, then by whether the received word's syndrome is 0. -/
theorem decGResult : Obligations.DecGResult := by
  intro len s
  refine ⟨fun hValid => exec_decG_of_unconfigured hValid len,
    fun hValid hLen => exec_decG_of_ne hValid hLen, ?_⟩
  rintro hValid rfl
  exact ⟨fun hZero => exec_decG_of_response hValid (decodeResponse_of_syndrome_eq_zero hZero),
    fun hNonzero => exec_decG_of_response hValid (decodeResponse_of_syndrome_ne_zero hNonzero)⟩

/-- No two numbers of parity bits give the same `n` (R120). -/
theorem codeLength_injective : Function.Injective codeLength := fun r q h =>
  Nat.pow_right_injective (le_refl 2) <|
    Nat.sub_one_cancel (Nat.two_pow_pos r) (Nat.two_pow_pos q) h

/-- Settles O35: the old `n` is not the `n` of the configured `r`, so the length check fails. -/
theorem wrongConfigurationIsRefused : Obligations.WrongConfigurationIsRefused := fun _ _ hValid hR =>
  exec_decG_of_ne hValid fun hLen => hR (codeLength_injective hLen).symm

/-! ## Sums over chosen positions -/

theorem xorOver_filter (S : List Nat) (p f : Nat → Bool) :
    xorOver (S.filter p) f = xorOver S fun x => p x && f x := by
  induction S with
  | nil => rfl
  | cons x S ih => cases hp : p x <;> simp [hp, ih]

/-- The choice and the terms of a sum change places. -/
theorem xorOver_filter_comm (S : List Nat) (p f : Nat → Bool) :
    xorOver (S.filter p) f = xorOver (S.filter f) p := by
  simp only [xorOver_filter, Bool.and_comm]

/-- A sum over chosen members of a sequence is one over their indices. -/
theorem xorOver_filter_eq_range (S : List Nat) (p f : Nat → Bool) :
    xorOver (S.filter p) f =
      xorOver ((List.range S.length).filter fun i => p (S.getD i 0)) fun i => f (S.getD i 0) := by
  have hIndexed : S = (List.range S.length).map (S.getD · 0) :=
    List.ext_getElem (by simp) fun i h _ => by simp [h]
  calc xorOver (S.filter p) f
      = xorOver (((List.range S.length).map (S.getD · 0)).filter p) f := by rw [← hIndexed]
    _ = _ := by rw [List.filter_map, xorOver, List.foldl_map]; rfl

/-- A sum of bits says whether the number of one bits among them is odd (R9). -/
theorem xorOver_eq_odd_length (S : List Nat) (f : Nat → Bool) :
    xorOver S f = ((S.filter f).length % 2 == 1) := by
  induction S with
  | nil => rfl
  | cons x S ih =>
    rw [xorOver_cons, ih]
    cases hf : f x with
    | false => simp [hf]
    | true =>
      rw [List.filter_cons_of_pos hf, List.length_cons, Bool.true_xor]
      rcases Nat.mod_two_eq_zero_or_one (S.filter f).length with h | h <;> simp [h, Nat.add_mod]

/-! ## The encoder's equations (R122) -/

theorem coveredSet_two_pow (j n : Nat) :
    coveredSet (2 ^ j) n = (positions n).filter (Nat.testBit · j) := by
  refine List.filter_congr fun x _ => ?_
  rw [Nat.and_two_pow]
  cases x.testBit j <;> simp

/-- The only power of two with bit `j` set is `2^j`. -/
theorem isPowerOfTwo_of_testBit {x j : Nat} (hBit : x.testBit j = true) :
    isPowerOfTwo x = true ↔ x = 2 ^ j := by
  rw [isPowerOfTwo_iff]
  constructor
  · rintro ⟨k, rfl⟩
    rw [Nat.testBit_two_pow, decide_eq_true_iff] at hBit
    rw [hBit]
  · exact fun h => ⟨j, h⟩

/-- Beside itself `2^j` covers the data positions with bit `j` set (R104). -/
theorem coveredSet_two_pow_others (j r : Nat) :
    (coveredSet (2 ^ j) (codeLength r)).filter (· != 2 ^ j) =
      (dataPositions r).filter (Nat.testBit · j) := by
  rw [coveredSet_two_pow, dataPositions, List.filter_filter, List.filter_filter]
  refine List.filter_congr fun x _ => ?_
  cases hBit : x.testBit j with
  | false => simp
  | true =>
    rw [Bool.and_true, Bool.true_and, bne, Bool.not_inj_iff, Bool.eq_iff_iff, beq_iff_eq,
      isPowerOfTwo_of_testBit hBit]

/-- A parity bit in terms of the data bits: the sum of those whose position has its bit set (R122). -/
theorem bitAt_hammingEncode_two_pow {r j : Nat} (hr : r ≤ 6) (hj : j < r) (d : Bus) :
    bitAt (hammingEncode r d) (2 ^ j) =
      xorOver ((List.range (dataLength r)).filter fun i => ((dataPositions r).getD i 0).testBit j)
        d.getLsbD := by
  rw [bitAt_hammingEncode_parity hr ((mem_parityPositions r _).mpr ⟨j, hj, rfl⟩),
    coveredSet_two_pow_others, xorOver_filter_eq_range, dataPositions_length]
  refine xorOver_congr fun i hi => bitAt_hammingEncode_data hr ?_ d
  have hLt : i < (dataPositions r).length :=
    dataPositions_length r ▸ List.mem_range.mp (List.mem_of_mem_filter hi)
  simp [hLt]

/-- Settles O43, clause by clause. -/
theorem encoderPlacesDataAndParity : Obligations.EncoderPlacesDataAndParity := fun r d _ hr =>
  ⟨fun _ _ hp => bitAt_hammingEncode_data hr hp d,
    fun j hj => ⟨bitAt_hammingEncode_parity hr ((mem_parityPositions r _).mpr ⟨j, hj, rfl⟩) d,
      bitAt_hammingEncode_two_pow hr hj d⟩,
    fun _ hb => getLsbD_hammingEncode_of_ge hb d⟩

/-! ## The syndrome's equations (R123, R124) -/

/-- `popcount` counts the one bits: the length of any list without repetition of their positions (R9). -/
theorem popcount_eq_length {x : Nat} {S : List Nat} (hNodup : S.Nodup)
    (hS : ∀ p, p ∈ S ↔ 1 ≤ p ∧ x.testBit (p - 1) = true) : popcount x = S.length := by
  have hMem : ∀ i, i ∈ (List.range (x.log2 + 1)).filter x.testBit ↔ x.testBit i = true := by
    intro i
    rw [List.mem_filter, List.mem_range, and_iff_right_iff_imp]
    intro hBit
    have hx : x ≠ 0 := fun h => by simp [h] at hBit
    exact Nat.lt_succ_of_le ((Nat.le_log2 hx).mpr (Nat.ge_two_pow_of_testBit hBit))
  have hPerm : (((List.range (x.log2 + 1)).filter x.testBit).map (· + 1)).Perm S := by
    refine (List.perm_ext_iff_of_nodup
      ((List.nodup_range.filter _).map (add_left_injective 1)) hNodup).mpr fun p => ?_
    rw [List.mem_map, hS]
    constructor
    · rintro ⟨i, hi, rfl⟩
      exact ⟨Nat.le_add_left 1 i, (hMem i).mp hi⟩
    · rintro ⟨hp, hBit⟩
      exact ⟨p - 1, (hMem _).mpr hBit, Nat.sub_add_cancel hp⟩
  rw [popcount, ← hPerm.length_eq, List.length_map]

/-- The parity of a word under the mask of `S` is the sum of its bits over `S` (R9, R11). -/
theorem parity_and_maskOf {S : List Nat} (hNodup : S.Nodup) (hS : ∀ x ∈ S, 1 ≤ x) (c : Bus) :
    parity (c &&& maskOf S) = xorOver S (bitAt c) := by
  rw [parity, xorOver_eq_odd_length, popcount_eq_length (hNodup.filter (bitAt c))]
  intro p
  rw [List.mem_filter, BitVec.testBit_toNat, BitVec.getLsbD_and, Bool.and_eq_true, ← bitAt]
  constructor
  · rintro ⟨hp, hBit⟩
    refine ⟨hS p hp, hBit, ?_⟩
    rw [getLsbD_maskOf S hS _ (BitVec.lt_of_getLsbD hBit), Nat.sub_add_cancel (hS p hp)]
    exact decide_eq_true hp
  · rintro ⟨hp, hBit, hMask⟩
    rw [getLsbD_maskOf S hS _ (BitVec.lt_of_getLsbD hBit), Nat.sub_add_cancel hp] at hMask
    exact ⟨of_decide_eq_true hMask, hBit⟩

theorem testBit_syndrome_of_lt {r j : Nat} (hj : j < r) (c : Bus) :
    (syndrome r c).testBit j = xorOver (coveredSet (2 ^ j) (codeLength r)) (bitAt c) := by
  rw [testBit_syndrome, decide_eq_true hj, Bool.true_and, checkFails]

/-- Settles O44: a check is the sum over its covered set, which the set's mask cuts out of the word. -/
theorem syndromeBitsAreCoveredParities : Obligations.SyndromeBitsAreCoveredParities := by
  intro r c _ _ j hj
  have hSum := testBit_syndrome_of_lt hj c
  have hPositive : ∀ x ∈ coveredSet (2 ^ j) (codeLength r), 1 ≤ x := fun x hx =>
    ((mem_coveredSet _ _ x).mp hx).1.1
  exact ⟨hSum, hSum.trans (parity_and_maskOf (coveredSet_nodup _ _) hPositive c).symm⟩

theorem testBit_foldl_xor (S : List Nat) (a j : Nat) :
    (S.foldl (· ^^^ ·) a).testBit j = (a.testBit j ^^ xorOver S (Nat.testBit · j)) := by
  induction S generalizing a with
  | nil => simp
  | cons x S ih => rw [List.foldl_cons, ih, Nat.testBit_xor, xorOver_cons, Bool.xor_assoc]

theorem testBit_eq_false_of_le_codeLength {r x j : Nat} (hMax : x ≤ codeLength r) (hj : r ≤ j) :
    x.testBit j = false :=
  Bool.eq_false_iff.mpr fun hBit => Nat.not_lt.mpr hj (lt_of_testBit_of_le_codeLength hMax hBit)

/-- The one bits' positions add up to the syndrome, bit by bit: check `j` sums the word over the positions
with bit `j`, which is to sum bit `j` over the one bits' positions (R124). -/
theorem syndrome_eq_foldl_xor (r : Nat) (c : Bus) :
    syndrome r c = ((positions (codeLength r)).filter (bitAt c)).foldl (· ^^^ ·) 0 := by
  refine Nat.eq_of_testBit_eq fun j => ?_
  rw [testBit_foldl_xor, Nat.zero_testBit, Bool.false_xor]
  rcases Nat.lt_or_ge j r with hj | hj
  · rw [testBit_syndrome_of_lt hj, coveredSet_two_pow, xorOver_filter_comm]
  · rw [testBit_eq_false_of_le_codeLength (syndrome_le_codeLength r c) hj, ← xorOver_false]
    refine (xorOver_congr fun x hx => ?_).symm
    exact testBit_eq_false_of_le_codeLength
      ((mem_positions _ x).mp (List.mem_of_mem_filter hx)).2 hj

theorem bitAt_xor (c e : Bus) (p : Nat) : bitAt (c ^^^ e) p = (bitAt c p ^^ bitAt e p) :=
  BitVec.getLsbD_xor

theorem checkFails_xor (r : Nat) (c e : Bus) (j : Nat) :
    checkFails r (c ^^^ e) j = (checkFails r c j ^^ checkFails r e j) := by
  rw [checkFails, checkFails, checkFails, ← xorOver_xor]
  exact xorOver_congr fun x _ => bitAt_xor c e x

/-- "the syndrome is linear" (R124). -/
theorem syndrome_xor (r : Nat) (c e : Bus) : syndrome r (c ^^^ e) = syndrome r c ^^^ syndrome r e := by
  refine Nat.eq_of_testBit_eq fun j => ?_
  rw [Nat.testBit_xor, testBit_syndrome, testBit_syndrome, testBit_syndrome, checkFails_xor,
    Bool.and_xor_distrib_left]

/-- Settles O45, clause by clause. -/
theorem syndromeIsXorOfPositions : Obligations.SyndromeIsXorOfPositions := fun r c e =>
  ⟨syndrome_eq_foldl_xor r c, syndrome_xor r c e, syndrome_le_codeLength r c⟩

/-! ## The decoder (R125, R126, R131) -/

theorem hammingDecode_of_syndrome_eq_zero {r : Nat} {c : Bus} (h : syndrome r c = 0) :
    hammingDecode r c = .noError (extract r c) := by
  rw [hammingDecode_eq, if_pos h]

theorem hammingDecode_of_syndrome_ne_zero {r : Nat} {c : Bus} (h : syndrome r c ≠ 0) :
    hammingDecode r c = .corrected (extract r (flipAt c (syndrome r c))) (syndrome r c) := by
  rw [hammingDecode_eq, if_neg h]

/-- The extractor reads data positions only, so a flipped parity bit does not reach the data (R125). -/
theorem extract_flipAt_parity {r p : Nat} (hr : r ≤ 6) (hp : p ∈ parityPositions r) (c : Bus) :
    extract r (flipAt c p) = extract r c := by
  have hp1 := ((mem_parityPositions_iff_isPowerOfTwo r p).mp hp).1.1
  rw [extract_eq_busOf, extract_eq_busOf]
  refine congrArg busOf (List.map_congr_left fun q hq => ?_)
  obtain ⟨hq1, hq64⟩ := dataPosition_bounds hr hq
  have hne : q ≠ p := fun h => not_mem_parityPositions_of_data hq (h ▸ hp)
  rw [bitAt_flipAt c p q hp1 hq1 hq64, decide_eq_false hne, Bool.xor_false]

/-- Settles O46, clause by clause. -/
theorem decoderCorrectsThenExtracts : Obligations.DecoderCorrectsThenExtracts := fun _ c _ hr =>
  ⟨hammingDecode_of_syndrome_eq_zero, hammingDecode_of_syndrome_ne_zero,
    fun _ _ hp => getLsbD_extract hr hp c, fun _ hb => getLsbD_extract_of_ge hb c,
    fun _ hp => extract_flipAt_parity hr hp c⟩

/-- Settles O47. -/
theorem codewordsHaveSyndromeZero : Obligations.CodewordsHaveSyndromeZero := fun _ d _ hr =>
  syndrome_hammingEncode hr d

/-! ## The round trip (R132) -/

theorem lowBits_lowBits (len : Nat) (v : Bus) : lowBits len (lowBits len v) = lowBits len v :=
  lowBits_eq_self fun i hi => by
    rw [getLsbD_lowBits, decide_eq_false (Nat.not_lt.mpr hi), Bool.false_and]

/-- A codeword lies whole within the bits a decode command reads (R43, R44). -/
theorem lowBits_hammingEncode (r : Nat) (d : Bus) :
    lowBits (codeLength r) (hammingEncode r d) = hammingEncode r d :=
  lowBits_eq_self fun _ hi => getLsbD_hammingEncode_of_ge hi d

/-- A decode body gives the data back from the codeword of a block from the bus (R132). -/
theorem decodeBlock_codeword {r : Nat} (hr : r ≤ 6) {d : Bus} {u : State}
    (hDin : u.din = hammingEncode r (lowBits (dataLength r) d)) :
    decodeBlock r (codeLength r) u =
      .next { u with response := some ⟨.ok, lowBits (dataLength r) d, 0⟩ } := by
  rw [decodeBlock_of_length, hDin, lowBits_hammingEncode,
    decodeResponse_of_syndrome_eq_zero (syndrome_hammingEncode hr _), extract_hammingEncode hr,
    lowBits_lowBits]

/-- A legal configuration has `r` up to 6 (R5, R22). -/
theorem State.LegalConfig.cfgR_le_six {s : State} (hLegal : s.LegalConfig) (hValid : s.cfgValid = true) :
    s.cfgR.toNat ≤ 6 :=
  (hLegal hValid).2.trans (RMax_bounds s.rMax).2

/-- Settles O48: a codeword has syndrome 0 and holds the data. -/
theorem roundTrip : Obligations.RoundTrip := by
  constructor
  · intro r d _ hr
    rw [hammingDecode_of_syndrome_eq_zero (syndrome_hammingEncode hr d), extract_hammingEncode hr]
    rfl
  · intro s hLegal hValid
    exact ⟨_, exec_encG_of_configured hValid rfl, fun u huValid huR huDin =>
      (exec_decG_eq_decodeBlock huValid (congrArg BitVec.toNat huR) _).trans
        (decodeBlock_codeword (hLegal.cfgR_le_six hValid) huDin)⟩

/-! ## One flipped bit (R133, R150) -/

theorem lowBits_flipAt {p n : Nat} (hp1 : 1 ≤ p) (hpn : p ≤ n) {v : Bus}
    (hv : ∀ i, n ≤ i → v.getLsbD i = false) : lowBits n (flipAt v p) = flipAt v p := by
  refine lowBits_eq_self fun i hi => ?_
  rcases Nat.lt_or_ge i 64 with h64 | h64
  · rw [getLsbD_flipAt v hp1 h64, hv i hi, decide_eq_false (by omega), Bool.xor_false]
  · exact BitVec.getLsbD_of_ge _ _ h64

/-- The codeword with position `p` flipped decodes to the data, corrected at `p` (R133). -/
theorem hammingDecode_flipped_codeword {r p : Nat} (hr : r ≤ 6) (hp1 : 1 ≤ p) (hpn : p ≤ codeLength r)
    (d : Bus) :
    hammingDecode r (flipAt (hammingEncode r d) p) = .corrected (lowBits (dataLength r) d) p := by
  have hSyndrome := syndrome_flipped_codeword hr hp1 hpn d
  rw [hammingDecode_of_syndrome_ne_zero (by omega), hSyndrome, flipAt_flipAt, extract_hammingEncode hr]

/-- A decode body repairs one flipped bit of the codeword of a block from the bus (R133). -/
theorem decodeBlock_flipped_codeword {r p : Nat} (hr : r ≤ 6) (hp1 : 1 ≤ p) (hpn : p ≤ codeLength r)
    {d : Bus} {u : State} (hDin : u.din = flipAt (hammingEncode r (lowBits (dataLength r) d)) p) :
    decodeBlock r (codeLength r) u = .next { u with
      response := some ⟨.corrected, lowBits (dataLength r) d, BitVec.ofNat 7 p⟩ } := by
  have hSyndrome := syndrome_flipped_codeword hr hp1 hpn (lowBits (dataLength r) d)
  rw [decodeBlock_of_length, hDin, lowBits_flipAt hp1 hpn fun _ hi => getLsbD_hammingEncode_of_ge hi _,
    decodeResponse_of_syndrome_ne_zero (by omega), hSyndrome, flipAt_flipAt, extract_hammingEncode hr,
    lowBits_lowBits]

/-- Settles O49: the syndrome of the flipped codeword is the position of the flip. -/
theorem singleErrorIsCorrected : Obligations.SingleErrorIsCorrected := by
  constructor
  · intro r d p _ hr hp1 hpn
    exact hammingDecode_flipped_codeword hr hp1 hpn d
  · intro s hLegal hValid
    exact ⟨_, exec_encG_of_configured hValid rfl, fun u p huValid huR hp1 hpn huDin =>
      (exec_decG_eq_decodeBlock huValid (congrArg BitVec.toNat huR) _).trans
        (decodeBlock_flipped_codeword (hLegal.cfgR_le_six hValid) hp1 hpn huDin)⟩

/-- Settles O50: the fixed codecs are the block commands at `r = 3` and `r = 4` (R150). -/
theorem fixedCodecsCorrectSingleErrors : Obligations.FixedCodecsCorrectSingleErrors := fun s =>
  ⟨⟨_, encodeBlock_of_length hamming74R s, fun _ _ hp1 hpn hDin =>
      decodeBlock_flipped_codeword (r := hamming74R) (by decide) hp1 hpn hDin⟩,
    ⟨_, encodeBlock_of_length hamming1511R s, fun _ _ hp1 hpn hDin =>
      decodeBlock_flipped_codeword (r := hamming1511R) (by decide) hp1 hpn hDin⟩⟩

/-! ## Two flipped bits (R130) -/

/-- Two distinct positions of `[1, n]` add up to a third one. -/
theorem xor_position {r x y : Nat} (hx1 : 1 ≤ x) (hxn : x ≤ codeLength r) (hy1 : 1 ≤ y)
    (hyn : y ≤ codeLength r) (hne : x ≠ y) :
    1 ≤ x ^^^ y ∧ x ^^^ y ≤ codeLength r ∧ x ^^^ y ≠ x ∧ x ^^^ y ≠ y := by
  refine ⟨Nat.one_le_iff_ne_zero.mpr (Nat.xor_ne_zero_iff.mpr hne), ?_, fun h => ?_, fun h => ?_⟩
  · exact Nat.le_sub_one_of_lt
      (Nat.xor_lt_two_pow (lt_two_pow_of_le_codeLength hxn) (lt_two_pow_of_le_codeLength hyn))
  · have : y = 0 := Nat.xor_right_injective (h.trans (Nat.xor_zero x).symm)
    omega
  · have : x = 0 := Nat.xor_left_injective (h.trans (Nat.zero_xor y).symm)
    omega

theorem syndrome_twice_flipped_codeword {r x y : Nat} (hr : r ≤ 6) (hx1 : 1 ≤ x) (hxn : x ≤ codeLength r)
    (hy1 : 1 ≤ y) (hyn : y ≤ codeLength r) (d : Bus) :
    syndrome r (flipAt (flipAt (hammingEncode r d) x) y) = x ^^^ y := by
  rw [syndrome_flipAt hr hy1 hyn, syndrome_flipped_codeword hr hx1 hxn]

/-- Settles O51: the syndrome of two flips is the third position `x ^ y`, which the decoder takes for a
single flip. -/
theorem doubleErrorsAreMiscorrected : Obligations.DoubleErrorsAreMiscorrected := by
  intro r d x y _ hr hx1 hxn hy1 hyn hne
  have hThird := xor_position hx1 hxn hy1 hyn hne
  have hSyndrome := syndrome_twice_flipped_codeword hr hx1 hxn hy1 hyn d
  refine ⟨hThird, ?_⟩
  rw [hammingDecode_of_syndrome_ne_zero (hSyndrome ▸ Nat.one_le_iff_ne_zero.mp hThird.1), hSyndrome]

end Sys2Proof.Machine
end

section
/-! Proofs about the fixed codecs (R150 to R159): the unrolled datapaths compute the general functions at
`r = 3` and `r = 4`. The tables below are the general definitions evaluated; the equations of R151, R152,
R155 and R156 are read off them. -/

namespace Sys2Proof.Machine

/-! ## Which data bits make up a codeword bit (R122) -/

/-- The data bits whose sum stands at position `p` of a codeword: for a parity position those it covers,
for a data position its own (R122). -/
def codewordTerms (r p : Nat) : List Nat :=
  (List.range (dataLength r)).filter fun i =>
    if isPowerOfTwo p then (dataPositions r).getD i 0 &&& p != 0 else (dataPositions r).getD i 0 == p

theorem codewordTerms_two_pow (r j : Nat) :
    codewordTerms r (2 ^ j) =
      (List.range (dataLength r)).filter fun i => ((dataPositions r).getD i 0).testBit j := by
  refine List.filter_congr fun i _ => ?_
  rw [if_pos ((isPowerOfTwo_iff _).mpr ⟨j, rfl⟩), Nat.and_two_pow]
  cases ((dataPositions r).getD i 0).testBit j <;> simp

theorem codewordTerms_of_data {r i p : Nat} (hp : (dataPositions r)[i]? = some p) :
    codewordTerms r p = [i] := by
  obtain ⟨hi, hpi⟩ := List.getElem?_eq_some_iff.mp hp
  have hNotPow := ((mem_dataPositions r p).mp (List.mem_of_getElem? hp)).2
  have hTerms : codewordTerms r p = (List.range (dataLength r)).filter (· == i) := by
    refine List.filter_congr fun m hm => ?_
    have hm' : m < (dataPositions r).length := dataPositions_length r ▸ List.mem_range.mp hm
    rw [hNotPow, if_neg Bool.false_ne_true, List.getD_eq_getElem _ _ hm', ← hpi, Bool.eq_iff_iff,
      beq_iff_eq, beq_iff_eq, (dataPositions_nodup r).getElem_inj_iff]
  rw [hTerms, List.filter_beq, List.count_eq_one_of_mem List.nodup_range
    (List.mem_range.mpr (dataPositions_length r ▸ hi))]
  rfl

/-- Every bit of a codeword as a sum of data bits. -/
theorem bitAt_hammingEncode_eq_xorOver {r p : Nat} (hr : r ≤ 6) (hp : p ∈ positions (codeLength r))
    (d : Bus) : bitAt (hammingEncode r d) p = xorOver (codewordTerms r p) d.getLsbD := by
  have hRange := (mem_positions _ p).mp hp
  cases hPow : isPowerOfTwo p with
  | true =>
    obtain ⟨j, hj, rfl⟩ := (mem_parityPositions r p).mp
      ((mem_parityPositions_iff_isPowerOfTwo r p).mpr ⟨hRange, hPow⟩)
    rw [bitAt_hammingEncode_two_pow hr hj, codewordTerms_two_pow]
  | false =>
    obtain ⟨i, hi⟩ := List.getElem?_of_mem ((mem_dataPositions r p).mpr ⟨hRange, hPow⟩)
    rw [bitAt_hammingEncode_data hr hi, codewordTerms_of_data hi, xorOver_cons, xorOver_nil,
      Bool.xor_false]

/-- A word that holds nothing above position `n` is its bits at `1..n`. -/
theorem eq_busOf_positions {n : Nat} {v : Bus} (h : ∀ i, n ≤ i → v.getLsbD i = false) :
    v = busOf ((positions n).map (bitAt v)) := by
  have hLength : ((positions n).map (bitAt v)).length = n := by simp [positions]
  refine bus_ext fun i => ?_
  rcases Nat.lt_or_ge i n with hi | hi
  · rcases Nat.lt_or_ge i 64 with h64 | h64
    · rw [getLsbD_busOf _ _ h64]
      simp [positions, bitAt, hi]
    · rw [BitVec.getLsbD_of_ge _ _ h64, BitVec.getLsbD_of_ge _ _ h64]
  · rw [h i hi, getLsbD_busOf_of_ge (hLength.trans_le hi)]

theorem hammingEncode_eq_busOf {r : Nat} (hr : r ≤ 6) (d : Bus) :
    hammingEncode r d =
      busOf (((positions (codeLength r)).map (codewordTerms r)).map (xorOver · d.getLsbD)) := by
  rw [List.map_map]
  exact (eq_busOf_positions fun _ hi => getLsbD_hammingEncode_of_ge hi d).trans <|
    congrArg busOf (List.map_congr_left fun _ hp => bitAt_hammingEncode_eq_xorOver hr hp d)

/-- The encoder reads the `k` data bits only (R43). -/
theorem hammingEncode_lowBits {r : Nat} (hr : r ≤ 6) (d : Bus) :
    hammingEncode r (lowBits (dataLength r) d) = hammingEncode r d := by
  rw [hammingEncode_eq_busOf hr, hammingEncode_eq_busOf hr, List.map_map, List.map_map]
  refine congrArg busOf (List.map_congr_left fun p _ => xorOver_congr fun i hi => ?_)
  have hData : i < dataLength r := List.mem_range.mp (List.mem_of_mem_filter hi)
  rw [getLsbD_lowBits, decide_eq_true hData, Bool.true_and]

/-! ## The unrolled encoders (R151, R155) -/

theorem codewordTerms_three :
    (positions 7).map (codewordTerms 3) = [[0, 1, 3], [0, 2, 3], [0], [1, 2, 3], [1], [2], [3]] := by
  decide

theorem codewordTerms_four :
    (positions 15).map (codewordTerms 4) =
      [[0, 1, 3, 4, 6, 8, 10], [0, 2, 3, 5, 6, 9, 10], [0], [1, 2, 3, 7, 8, 9, 10], [1], [2], [3],
        [4, 5, 6, 7, 8, 9, 10], [4], [5], [6], [7], [8], [9], [10]] := by
  decide

theorem hammingEncode_three (d : Bus) : hammingEncode 3 d = unrolledEncode74 d := by
  rw [hammingEncode_eq_busOf (by decide), codeLength_three, codewordTerms_three]
  simp [unrolledEncode74]

theorem hammingEncode_four (d : Bus) : hammingEncode 4 d = unrolledEncode1511 d := by
  rw [hammingEncode_eq_busOf (by decide), codeLength_four, codewordTerms_four]
  simp [unrolledEncode1511]

/-- An encode body at its own length: the codeword of `DIN`, whose bits above the block do not count. -/
theorem encodeBlock_of_length_din {r : Nat} (hr : r ≤ 6) (s : State) :
    encodeBlock r (dataLength r) s =
      .next { s with response := some ⟨.ok, hammingEncode r s.din, 0⟩ } := by
  rw [encodeBlock_of_length, hammingEncode_lowBits hr]

/-- Settles O22: `ENC.74` is the encode body at `r = 3`. -/
theorem enc74Result : Obligations.Enc74Result := by
  intro len s
  refine ⟨fun hLen => encodeBlock_of_ne hLen s, ?_⟩
  rintro rfl
  rw [← hammingEncode_three]
  exact encodeBlock_of_length_din (r := hamming74R) (by decide) s

/-- Settles O24: `ENC.1511` is the encode body at `r = 4`. -/
theorem enc1511Result : Obligations.Enc1511Result := by
  intro len s
  refine ⟨fun hLen => encodeBlock_of_ne hLen s, ?_⟩
  rintro rfl
  rw [← hammingEncode_four]
  exact encodeBlock_of_length_din (r := hamming1511R) (by decide) s

/-! ## The unrolled decoders (R152, R156) -/

/-- The syndrome is the number whose bits are the checks, check 0 lowest (R123). -/
theorem syndrome_eq_busOf {r : Nat} (hr : r ≤ 6) (c : Bus) :
    syndrome r c = (busOf ((List.range r).map (checkFails r c))).toNat := by
  refine Nat.eq_of_testBit_eq fun j => ?_
  rw [testBit_syndrome, BitVec.testBit_toNat]
  rcases Nat.lt_or_ge j r with hj | hj
  · rw [getLsbD_busOf _ _ (by omega)]
    simp [hj]
  · rw [getLsbD_busOf_of_ge (by simpa using hj), decide_eq_false (Nat.not_lt.mpr hj), Bool.false_and]

theorem coveredSets_three :
    (List.range 3).map (fun j => coveredSet (2 ^ j) 7) = [[1, 3, 5, 7], [2, 3, 6, 7], [4, 5, 6, 7]] := by
  decide

theorem dataPositions_three : dataPositions 3 = [3, 5, 6, 7] := by decide

theorem dataPositions_four : dataPositions 4 = [3, 5, 6, 7, 9, 10, 11, 12, 13, 14, 15] := by decide

theorem syndrome_three (c : Bus) : syndrome 3 c = unrolledSyndrome74 c := by
  have hChecks : (List.range 3).map (checkFails 3 c) =
      ((List.range 3).map fun j => coveredSet (2 ^ j) 7).map (xorOver · (bitAt c)) := by
    rw [List.map_map]; rfl
  rw [syndrome_eq_busOf (by decide), hChecks, coveredSets_three]
  simp [unrolledSyndrome74, bitAt]

/-- A check is the parity of the word under the mask of its covered set (R123). -/
theorem checkFails_eq_parity (r : Nat) (c : Bus) (j : Nat) :
    checkFails r c j = parity (c &&& maskOf (coveredSet (2 ^ j) (codeLength r))) :=
  (parity_and_maskOf (coveredSet_nodup _ _) (fun x hx => ((mem_coveredSet _ _ x).mp hx).1.1) c).symm

theorem syndrome_four (c : Bus) : syndrome 4 c = unrolledSyndrome1511 c := by
  obtain ⟨-, -, -, hMasks, -, -⟩ := coverageMasks
  have hChecks : (List.range 4).map (checkFails 4 c) =
      ((List.range 4).map fun j => maskOf (coveredSet (2 ^ j) 15)).map fun m => parity (c &&& m) := by
    rw [List.map_map]
    exact List.map_congr_left fun j _ => checkFails_eq_parity 4 c j
  rw [syndrome_eq_busOf (by decide), hChecks, hMasks]
  rfl

theorem extract_three (c : Bus) : extract 3 c = unrolledExtract74 c := by
  rw [extract_eq_busOf, dataPositions_three]
  rfl

theorem extract_four (c : Bus) : extract 4 c = unrolledExtract1511 c := by
  refine bus_ext fun i => ?_
  rcases Nat.lt_or_ge i 11 with hi | hi
  · rw [extract_eq_busOf, dataPositions_four, getLsbD_busOf _ _ (by omega), unrolledExtract1511,
      BitVec.getLsbD_setWidth, BitVec.getLsbD_append, BitVec.getLsbD_append]
    interval_cases i <;> simp [bitAt]
  · rw [getLsbD_extract_of_ge hi, unrolledExtract1511, BitVec.getLsbD_setWidth,
      BitVec.getLsbD_of_ge _ i hi, Bool.and_false]

/-- What a decode command answers, with the correction applied before the extraction (R126). -/
theorem decodeResponse_eq_unrolled (r : Nat) (c : Bus) :
    decodeResponse r c =
      ⟨if syndrome r c = 0 then .ok else .corrected, extract r (unrolledCorrect c (syndrome r c)),
        BitVec.ofNat 7 (syndrome r c)⟩ := by
  by_cases h : syndrome r c = 0
  · rw [decodeResponse_of_syndrome_eq_zero h, h]
    rfl
  · rw [decodeResponse_of_syndrome_ne_zero h, if_neg h, unrolledCorrect, if_pos h]
    rfl

/-- Settles O23: `DEC.74` is the decode body at `r = 3`. -/
theorem dec74Result : Obligations.Dec74Result := by
  intro len s
  refine ⟨fun hLen => decodeBlock_of_ne hLen s, ?_⟩
  rintro rfl
  dsimp only
  rw [← syndrome_three, ← extract_three, ← decodeResponse_eq_unrolled]
  exact decodeBlock_of_length hamming74R s

/-- Settles O25: `DEC.1511` is the decode body at `r = 4`. -/
theorem dec1511Result : Obligations.Dec1511Result := by
  intro len s
  refine ⟨fun hLen => decodeBlock_of_ne hLen s, ?_⟩
  rintro rfl
  dsimp only
  rw [← syndrome_four, ← extract_four, ← decodeResponse_eq_unrolled]
  exact decodeBlock_of_length hamming1511R s

/-! ## The general codec at the fixed codecs' `r` (R159) -/

/-- `ENC.G` on a configured core is the encode body at `CFG_R` (R128). -/
theorem exec_encG_eq_encodeBlock {r : Nat} {s : State} (hValid : s.cfgValid = true)
    (hR : s.cfgR.toNat = r) (len : Nat) : exec (.encG len) s = encodeBlock r len s := by
  subst hR
  exact withGeneralCodec_of_configured hValid fun r => encodeBlock r len s

/-- After a `CFG` that succeeds, `ENC.G` and `DEC.G` are the block commands at its `r`, on every `DIN`. -/
theorem exec_cfg_then_block {r : Nat} {s : State} (hPos : 1 ≤ r) (hMax : r ≤ s.rMax.toNat) :
    ∃ t, exec (.cfg r) s = .next t ∧ ∀ (len : Nat) (d : Bus),
      exec (.encG len) { t with din := d } = encodeBlock r len { t with din := d } ∧
      exec (.decG len) { t with din := d } = decodeBlock r len { t with din := d } := by
  refine ⟨_, exec_cfg_of_valid hPos hMax, fun len d => ?_⟩
  have hR := toNat_cfgR_of_le hMax
  exact ⟨exec_encG_eq_encodeBlock rfl hR len, exec_decG_eq_decodeBlock rfl hR len⟩

/-- Settles O28: the fixed codecs are the block commands at `r = 3` and `r = 4`, which every `R_MAX`
allows `CFG` to select. -/
theorem fixedCodecsMatchTheGeneralCodec : Obligations.FixedCodecsMatchTheGeneralCodec := by
  intro s
  have hFour : 4 ≤ s.rMax.toNat := (RMax_bounds s.rMax).1
  obtain ⟨t, ht, hBlocks⟩ := exec_cfg_then_block (r := 3) (s := s) (by decide) (by omega)
  obtain ⟨u, hu, hBlocks'⟩ := exec_cfg_then_block (r := 4) (s := s) (by decide) hFour
  exact ⟨⟨t, ht, fun d => ⟨(hBlocks 4 d).1, (hBlocks 7 d).2⟩⟩,
    ⟨u, hu, fun d => ⟨(hBlocks' 11 d).1, (hBlocks' 15 d).2⟩⟩⟩

end Sys2Proof.Machine
end

section
/-! Proofs about exceptions (R170 to R182): every response a command may give, with what brings it about,
and what an error leaves behind. -/

namespace Sys2Proof.Machine

/-! ## `ILLEGAL_COMMAND` (R177) -/

/-- Settles O7: the decoder refuses the word before anything else is looked at. -/
theorem illegalCommandResponds : Obligations.IllegalCommandResponds := by
  intro s c rest hPending hIllegal
  obtain ⟨e, hDecode⟩ := (decoderRefusesExactlyIllegalWords c.cmd).mpr hIllegal
  exact (step_of_command hPending).trans (runWord_of_error hDecode (accept c rest s))

/-! ## `INVALID_PARAMETER` (R173) -/

/-- Settles O19, by whether `r` is in `1..R_MAX`. -/
theorem cfgResult : Obligations.CfgResult := by
  intro r s
  constructor
  · intro hRefused
    exact exec_cfg_of_invalid (by omega)
  · intro hPos hMax
    have hReply : configReply r = BitVec.ofNat 64 ((2 ^ r - 1) + 256 * (2 ^ r - 1 - r)) :=
      configReply_eq (hMax.trans (RMax_bounds s.rMax).2)
    rw [exec_cfg_of_valid hPos hMax, hReply]
    rfl

/-! ## Which command gives which response (R170 to R176) -/

/-- The commands of the general codec, which alone need a configuration (R176). -/
def IsGeneral (i : Instr) : Prop := ∃ len, i = .encG len ∨ i = .decG len

/-- The decode commands, which alone correct (R170). -/
def IsDecode (i : Instr) : Prop := ∃ len, i = .decG len ∨ i = .dec74 len ∨ i = .dec1511 len

/-- The commands with a block and its `LEN` (R174). -/
def IsBlock (i : Instr) : Prop :=
  ∃ len, i = .encG len ∨ i = .decG len ∨ i = .enc74 len ∨ i = .dec74 len ∨ i = .enc1511 len ∨
    i = .dec1511 len

theorem IsDecode.isBlock {i : Instr} (h : IsDecode i) : IsBlock i := by
  obtain ⟨len, h | h | h⟩ := h
  · exact ⟨len, .inr (.inl h)⟩
  · exact ⟨len, .inr (.inr (.inr (.inl h)))⟩
  · exact ⟨len, .inr (.inr (.inr (.inr (.inr h))))⟩

/-- The responses the command `i` may give in state `s`, each with what brings it about (R170 to R176).
Neither `INVALID_LENGTH` (R175) nor `ILLEGAL_COMMAND` (R177) is among them. -/
inductive MayAnswer (i : Instr) (s : State) : Response → Prop
  | ok (d : Bus) : MayAnswer i s ⟨.ok, d, 0⟩
  | corrected (hDecode : IsDecode i) (d : Bus) (y : Syn) : MayAnswer i s ⟨.corrected, d, y⟩
  | invalidParameter {r : Nat} (hCfg : i = .cfg r) (hr : r = 0 ∨ s.rMax.toNat < r) :
      MayAnswer i s ⟨.invalidParameter, 0, 0⟩
  | wrongLength (hBlock : IsBlock i) : MayAnswer i s ⟨.invalidInput, 0, 0⟩
  | beyondBus {p n : Nat} (hCovers : i = .covers p n) (hn : 64 < n) :
      MayAnswer i s ⟨.invalidInput, 0, 0⟩
  | notConfigured (hGeneral : IsGeneral i) (hValid : s.cfgValid = false) :
      MayAnswer i s ⟨.notConfigured, 0, 0⟩

theorem encodeBlock_mayAnswer {i : Instr} (hBlock : IsBlock i) (r len : Nat) (s : State) :
    ∀ rsp ∈ responseOf (encodeBlock r len s), MayAnswer i s rsp := by
  by_cases hLen : len = dataLength r
  · rw [hLen, encodeBlock_of_length]
    rintro _ ⟨⟩
    exact .ok _
  · rw [encodeBlock_of_ne hLen]
    rintro _ ⟨⟩
    exact .wrongLength hBlock

theorem decodeBlock_mayAnswer {i : Instr} (hDecode : IsDecode i) (r len : Nat) (s : State) :
    ∀ rsp ∈ responseOf (decodeBlock r len s), MayAnswer i s rsp := by
  by_cases hLen : len = codeLength r
  · rw [hLen, decodeBlock_of_length]
    rintro _ ⟨⟩
    unfold decodeResponse
    split
    · exact .ok _
    · exact .corrected hDecode _ _
  · rw [decodeBlock_of_ne hLen]
    rintro _ ⟨⟩
    exact .wrongLength hDecode.isBlock

theorem withGeneralCodec_mayAnswer {i : Instr} (hGeneral : IsGeneral i) {s : State}
    {run : Nat → Host.Outcome State Fault Refusal}
    (hRun : ∀ r, ∀ rsp ∈ responseOf (run r), MayAnswer i s rsp) :
    ∀ rsp ∈ responseOf (withGeneralCodec s run), MayAnswer i s rsp := by
  obtain ⟨hValid, hRaise⟩ | ⟨-, hRuns⟩ := withGeneralCodec_cases s run
  · rw [hRaise]
    rintro _ ⟨⟩
    exact .notConfigured hGeneral hValid
  · rw [hRuns]
    exact hRun _

/-- Every response of a command is one of `MayAnswer`, in every state. -/
theorem exec_mayAnswer (i : Instr) (s : State) : ∀ rsp ∈ responseOf (exec i s), MayAnswer i s rsp := by
  cases i with
  | cfg r =>
    by_cases hr : 1 ≤ r ∧ r ≤ s.rMax.toNat
    · rw [exec_cfg_of_valid hr.1 hr.2]
      rintro _ ⟨⟩
      exact .ok _
    · rw [exec_cfg_of_invalid hr]
      rintro _ ⟨⟩
      exact .invalidParameter rfl (by omega)
  | encG len =>
    exact withGeneralCodec_mayAnswer ⟨len, .inl rfl⟩ fun r =>
      encodeBlock_mayAnswer ⟨len, .inl rfl⟩ r len s
  | decG len =>
    exact withGeneralCodec_mayAnswer ⟨len, .inr rfl⟩ fun r =>
      decodeBlock_mayAnswer ⟨len, .inl rfl⟩ r len s
  | enc74 len => exact encodeBlock_mayAnswer ⟨len, by simp⟩ _ len s
  | dec74 len => exact decodeBlock_mayAnswer ⟨len, by simp⟩ _ len s
  | enc1511 len => exact encodeBlock_mayAnswer ⟨len, by simp⟩ _ len s
  | dec1511 len => exact decodeBlock_mayAnswer ⟨len, by simp⟩ _ len s
  | isPow2 pos =>
    rintro _ ⟨⟩
    exact .ok _
  | covers p n =>
    rcases Nat.lt_or_ge 64 n with hn | hn
    · rw [exec_covers_of_gt hn]
      rintro _ ⟨⟩
      exact .beyondBus rfl hn
    · rw [exec_covers_of_le hn]
      rintro _ ⟨⟩
      exact .ok _

/-- Settles O17: the codes are the definition's, and each status is read off the responses a command may
give. -/
theorem statusesComeFromTheirCommands : Obligations.StatusesComeFromTheirCommands := by
  refine ⟨⟨rfl, rfl, rfl, rfl, rfl, rfl, rfl⟩, ?_⟩
  intro i s t r hExec hResponse
  have hMay := exec_mayAnswer i s
  rw [hExec] at hMay
  cases hMay r hResponse with
  | ok => exact ⟨nofun, nofun, nofun, nofun, nofun, nofun⟩
  | corrected hDecode => exact ⟨fun _ => hDecode, nofun, nofun, nofun, nofun, nofun⟩
  | invalidParameter hCfg hr => exact ⟨nofun, fun _ => ⟨_, hCfg, hr⟩, nofun, nofun, nofun, nofun⟩
  | wrongLength hBlock => exact ⟨nofun, nofun, fun _ => .inl hBlock, nofun, nofun, nofun⟩
  | beyondBus hCovers hn => exact ⟨nofun, nofun, fun _ => .inr ⟨_, _, hCovers, hn⟩, nofun, nofun, nofun⟩
  | notConfigured hGeneral hValid =>
    exact ⟨nofun, nofun, nofun, fun _ => ⟨hValid, hGeneral⟩, nofun, nofun⟩

/-! ## The response of a step -/

/-- A word is answered as its command may be, or it is illegal (R177). -/
theorem runWord_mayAnswer (w : Word) (s : State) :
    ∀ rsp ∈ responseOf (runWord w s), rsp = ⟨.illegalCommand, 0, 0⟩ ∨ ∃ i, MayAnswer i s rsp := by
  cases hDecode : decode w with
  | error e =>
    rw [runWord_of_error hDecode]
    rintro _ ⟨⟩
    exact .inl rfl
  | ok i =>
    rw [runWord_of_ok hDecode]
    exact fun rsp hRsp => .inr ⟨i, exec_mayAnswer i s rsp hRsp⟩

/-- Only a step that serves a command shows a response. -/
theorem runWord_of_step_response {s t : State} {r : Response} (hStep : step s = .next t)
    (hResponse : t.response = some r) : ∃ c after, runWord c.cmd (accept c after s) = .next t := by
  obtain ⟨-, h⟩ | ⟨c, -, after, -, h⟩ | ⟨rest, -, h⟩ | ⟨c, rest, -, h⟩ := step_cases s
  · cases h.symm.trans hStep
    cases hResponse
  · exact ⟨c, after, h.symm.trans hStep⟩
  · cases h.symm.trans hStep
    cases hResponse
  · cases h.symm.trans hStep
    cases hResponse

theorem step_mayAnswer {s t : State} {r : Response} (hStep : step s = .next t)
    (hResponse : t.response = some r) :
    r = ⟨.illegalCommand, 0, 0⟩ ∨ ∃ i u, MayAnswer i u r := by
  obtain ⟨c, after, hRun⟩ := runWord_of_step_response hStep hResponse
  have hMay := runWord_mayAnswer c.cmd (accept c after s)
  rw [hRun] at hMay
  exact (hMay r hResponse).imp_right fun ⟨i, h⟩ => ⟨i, _, h⟩

/-- Code 4 is `INVALID_LENGTH`, and no status has the reserved code 7 (R170). -/
theorem Status.code_ne_of_ne_invalidLength {st : Status} (h : st ≠ .invalidLength) :
    st.code ≠ 4 ∧ st.code ≠ 7 := by
  cases st with
  | invalidLength => exact absurd rfl h
  | ok | corrected | invalidParameter | invalidInput | notConfigured | illegalCommand => decide

/-- Settles O16: every step goes on, and no response of a step is `INVALID_LENGTH`. -/
theorem invalidLengthIsNeverProduced : Obligations.InvalidLengthIsNeverProduced := by
  intro s
  constructor
  · intro f hFault
    obtain ⟨t, hStep⟩ := step_goes s
    cases hFault.symm.trans hStep
  · intro t r hStep hResponse
    apply Status.code_ne_of_ne_invalidLength
    obtain rfl | ⟨i, u, hMay⟩ := step_mayAnswer hStep hResponse
    · exact nofun
    · cases hMay <;> exact nofun

/-! ## What an error leaves behind (R171, R182) -/

/-- "codes 2 to 6 are errors" (R170). -/
theorem Status.isError_iff_code (st : Status) :
    st.isError = true ↔ 2 ≤ st.code.toNat ∧ st.code.toNat ≤ 6 := by
  cases st <;> decide

/-- An error carries zeros (R171). -/
theorem step_error_zeros {s t : State} {r : Response} (hStep : step s = .next t)
    (hResponse : t.response = some r) (hError : r.status.isError = true) : r.dout = 0 ∧ r.syn = 0 := by
  obtain rfl | ⟨i, u, hMay⟩ := step_mayAnswer hStep hResponse
  · exact ⟨rfl, rfl⟩
  · cases hMay with
    | ok | corrected => cases hError
    | invalidParameter | wrongLength | beyondBus | notConfigured => exact ⟨rfl, rfl⟩

/-- An error writes no state (R171): the one command that does, a successful `CFG`, answers `OK`. -/
theorem step_error_sameConfig {s t : State} {r : Response} (hStep : step s = .next t)
    (hResponse : t.response = some r) (hError : r.status.isError = true) : t.SameConfig s := by
  obtain ⟨c, after, hRun⟩ := runWord_of_step_response hStep hResponse
  obtain ⟨rsp, h⟩ | ⟨q, -, -, -, h⟩ := runWord_cases c.cmd (accept c after s)
  · cases h.symm.trans hRun
    exact ⟨rfl, rfl, rfl⟩
  · cases h.symm.trans hRun
    cases hResponse
    exact absurd hError Bool.false_ne_true

/-- A word takes two states of one configuration to states of one configuration. -/
theorem runWord_sameConfig {w : Word} {s t s' t' : State} (hConfig : s.SameConfig t)
    (hs : runWord w s = .next s') (ht : runWord w t = .next t') : s'.SameConfig t' := by
  cases hDecode : decode w with
  | error e =>
    cases (runWord_of_error hDecode s).symm.trans hs
    cases (runWord_of_error hDecode t).symm.trans ht
    exact hConfig
  | ok i =>
    rw [runWord_of_ok hDecode] at hs ht
    exact exec_sameConfig hConfig hs ht

/-- A command is answered alike, and writes alike, in two states of one configuration (R50). -/
theorem step_command_congr {s t u v : State} (hConfig : s.SameConfig t) {c : Command}
    {rest : List HostEvent} (hs : s.pending = .command c :: rest) (ht : t.pending = .command c :: rest)
    (hu : step s = .next u) (hv : step t = .next v) : u.response = v.response ∧ u.SameConfig v := by
  have hAccepted : (accept c rest s).SameConfig (accept c rest t) := hConfig
  rw [step_of_command hs] at hu
  rw [step_of_command ht] at hv
  have hResponse := responseOf_runWord_congr (w := c.cmd) hAccepted rfl
  rw [hu, hv] at hResponse
  exact ⟨hResponse, runWord_sameConfig hAccepted hu hv⟩

/-- Settles O15: an error leaves the configuration, and the next command depends on nothing else. -/
theorem errorResponsesWriteNothing : Obligations.ErrorResponsesWriteNothing := by
  intro s t r hStep hResponse hCode
  have hError := (Status.isError_iff_code r.status).mpr hCode
  obtain ⟨hDout, hSyn⟩ := step_error_zeros hStep hResponse hError
  have hConfig := step_error_sameConfig hStep hResponse hError
  have hPresented : ∀ es, { t with pending := es }.SameConfig { s with pending := es } := fun _ => hConfig
  obtain ⟨-, hKeptValid, hKeptR⟩ := hConfig
  refine ⟨hDout, hSyn, hKeptValid, hKeptR, fun c rest => ?_⟩
  obtain ⟨u, hu⟩ := step_goes { t with pending := .command c :: rest }
  obtain ⟨v, hv⟩ := step_goes { s with pending := .command c :: rest }
  obtain ⟨hSame, -, hValid, hR⟩ := step_command_congr (hPresented _) rfl rfl hu hv
  exact ⟨u, v, hu, hv, hSame, hValid, hR⟩

end Sys2Proof.Machine
end

section
/-! Proofs about reset against an outstanding command (R191) and about termination (R197). -/

namespace Sys2Proof.Machine

/-! ## Every command completes (R197) -/

/-- A word is answered, and leaves the port as it stands. -/
theorem runWord_completes (w : Word) (s : State) :
    ∃ t r, runWord w s = .next t ∧ t.response = some r ∧ t.pending = s.pending := by
  obtain ⟨rsp, h⟩ | ⟨r, -, -, -, h⟩ := runWord_cases w s
  · exact ⟨_, rsp, h, rfl, rfl⟩
  · exact ⟨_, ⟨.ok, configReply r, 0⟩, h, rfl, rfl⟩

/-- Settles O10: a command at the head of the port is run as its word. -/
theorem everyCommandCompletes : Obligations.EveryCommandCompletes := by
  refine ⟨fun s c rest hPending => ?_, step_goes⟩
  rw [step_of_command hPending]
  exact runWord_completes c.cmd (accept c rest s)

/-! ## A command overtaken by reset (R191) -/

/-- Settles O9: taken from the port, the completing command leaves the state that a plain command with
a reset behind it leaves. -/
theorem resetOvertakesOutstandingCommand : Obligations.ResetOvertakesOutstandingCommand := by
  intro s c rest hPending
  obtain hCompletes | hDiscards := step_of_commandThenReset hPending
  · have hPlain : step { s with pending := .command c :: .reset :: rest } =
        runWord c.cmd (accept c (.reset :: rest) s) := step_of_command rfl
    obtain ⟨t, r, hRun, hResponse, hReset⟩ := runWord_completes c.cmd (accept c (.reset :: rest) s)
    exact .inl ⟨t, r, hCompletes.trans hRun, hResponse, hReset, hPlain.trans hRun⟩
  · exact .inr ⟨takeReset rest (discard s), hDiscards, rfl, rfl, rfl, rfl⟩

/-! ## Runs (R197) -/

theorem run_succ_of_next {M : Host.Core} {s t : M.State} (h : M.step s = .next t) (k : Nat) :
    M.run (k + 1) s = M.run k t := by
  simp only [Host.Core.run, h]

/-- Settles O11, by induction on the length of the run: every step goes on. -/
theorem runsNeverStop : Obligations.RunsNeverStop := by
  intro k
  induction k with
  | zero => exact fun s => ⟨s, rfl⟩
  | succ k ih =>
    intro s
    obtain ⟨t, hStep⟩ := step_goes s
    obtain ⟨u, hRun⟩ := ih t
    exact ⟨u, (run_succ_of_next (M := Sys2Proof.core) hStep k).trans hRun⟩

end Sys2Proof.Machine
end
